-- ==== Sys2Proof/Word.lean ====
section
/-! DEFINITION. The widths the spec fixes once: bytes of the packet buffer, command words, and the
64-bit tick counts. -/

namespace Sys2Proof

/-- One byte of the packet buffer BUF (R22). -/
abbrev Byte := BitVec 8

/-- One command word on the port CMD (R60, R63). -/
abbrev CmdWord := BitVec 16

/-- A `Time` (R12): an Int64 count of ticks since 1900-01-01T00:00:00 UTC, held as 64 bits in two's
complement (DEDUCED, log 22). Its number is `toInt`. -/
abbrev Time := BitVec 64

/-- A `Duration` (R12): an Int64 signed count of ticks, held as 64 bits in two's complement
(DEDUCED, log 22). Its number is `toInt`. -/
abbrev Duration := BitVec 64

end Sys2Proof
end

