-- ==== Sys2Proof/Config.lean ====
section
/-! DEFINITION. The implementation parameters of R8: the constants the source fixes, and the open
parameters as one record of plain data, which the machine's state carries and no step changes
(DESIGN CHOICE, log 1). -/

namespace Sys2Proof

/-- BUF_MIN (R8): the smallest packet length, in bytes. -/
def bufMin : Nat := 48

/-- DEFAULT_VERSION (R8): the version the default constructor writes. -/
def defaultVersion : BitVec 3 := 4

/-- DEFAULT_MODE (R8): the mode the default constructor writes, Client. -/
def defaultMode : BitVec 3 := 3

/-- DEFAULT_TIMEOUT (R8, R191), in milliseconds. -/
def defaultTimeoutMs : Nat := 15000

/-- MIN_TIMEOUT (R8, R193), in milliseconds. -/
def minTimeoutMs : Nat := 1

/-- NTP_PORT (R8): the default remote UDP port. -/
def ntpPort : BitVec 16 := 123

/-- CMD_WIDTH (R8): the width of a command word, in bits. -/
def cmdWidth : Nat := 16

/-- The parameter HALVE (R173). `towardZero` is the spec's default. `unspecified` takes each odd
numerator down or up as the opaque `Config.halveUp` says, so that it stands for every function that
satisfies the law of R173 (log 20). -/
inductive HalveRule where
  | towardZero
  | down
  | up
  | halfEven
  | unspecified
deriving DecidableEq, Repr

/-- The parameter ENC_TIE (R8, R142). `halfUp` is the spec's choice. `unspecified` takes each tie
down or up as the opaque `Config.tieUp` says, so that it stands for every tie rule (log 20). -/
inductive TieRule where
  | halfUp
  | halfDown
  | halfEven
  | unspecified
deriving DecidableEq, Repr

/-- The open parameters of R8 ("A model takes these parameters"). -/
structure Config where
  /-- TPS, ticks per second. -/
  tps : Nat
  /-- BUF_MAX, the largest packet length the block stores. -/
  bufMax : Nat
  /-- HALVE, the division by 2 in the correction offset. -/
  halve : HalveRule
  /-- ENC_TIE, the tie rule of the timestamp encoder. -/
  encTie : TieRule
  /-- MODE_STRICT: whether SET_MODE refuses values outside 3 and 4. -/
  modeStrict : Bool
deriving DecidableEq, Repr

/-- The defaults of R8. BUF_MAX is OPEN there; 68 is the value the test vectors take
(DESIGN CHOICE, log 2). -/
def Config.default : Config :=
  { tps := 10000000, bufMax := 68, halve := .towardZero, encTie := .halfUp, modeStrict := false }

/-- FREE VALUE (log 20): whether the odd numerator `n` is halved up. -/
opaque Config.halveUp : Int → Bool

/-- FREE VALUE (log 20): whether a tie just above the integer `n` is rounded up. -/
opaque Config.tieUp : Int → Bool

end Sys2Proof
end

