-- ==== Sys2Proof/Syntax.lean ====
section
/-! DEFINITION. What travels on the ports of one codec instance (R60 to R62), and the commands
themselves: one constructor of `Instr` for each row of the opcode map R65. -/

namespace Sys2Proof

/-- The kind of a data operand (R61). -/
inductive DinKind where
  | nothing
  | otime
  | bytes
deriving DecidableEq, Repr

/-- A data operand on the port DIN (R61). An OTIME operand carries the presence bit `p` and the
64-bit tick count `t`, which is ignored when `p` is 0. -/
inductive Din where
  | nothing
  | otime (p : Bool) (t : Time)
  | bytes (b : List Byte)
deriving DecidableEq, Repr

/-- The kind of a result (R62). -/
inductive DoutKind where
  | nothing
  | b2
  | b3
  | b8
  | b32
  | otime
  | dur
  | bytes
deriving DecidableEq, Repr

/-- A result on the port DOUT (R62). `none` of an `Option Time` is the spec's `absent` (R11). -/
inductive Dout where
  | nothing
  | b2 (v : BitVec 2)
  | b3 (v : BitVec 3)
  | b8 (v : Byte)
  | b32 (v : BitVec 32)
  | otime (o : Option Time)
  | dur (d : Duration)
  | bytes (b : List Byte)
deriving DecidableEq, Repr

/-- What the host puts on the two input ports to issue one command (R60). -/
structure Command where
  word : CmdWord
  din : Din
deriving DecidableEq, Repr

/-- The 27 commands (R65), each with its operands. An operand's type admits exactly the values the
command word and DIN can carry (R61, R64), so every term is a well-formed command. -/
inductive Instr where
  | getLi
  | setLi (v : BitVec 2)
  | getVn
  | setVn (v : BitVec 3)
  | getMode
  | setMode (v : BitVec 3)
  | getStratum
  | getPoll
  | getPrecision
  | getRootDelay
  | getRootDispersion
  | getReferenceId
  | getRefTs
  | setRefTs (o : Option Time)
  | getOrgTs
  | setOrgTs (o : Option Time)
  | getRcvTs
  | setRcvTs (o : Option Time)
  | getXmtTs
  | setXmtTs (o : Option Time)
  | getDstTs
  | setDstTs (o : Option Time)
  | getRtt
  | getOffset
  | initDefault
  | load (b : List Byte)
  | readBuf
deriving DecidableEq, Repr

end Sys2Proof
end

