-- ==== Sys2Proof/WellFormed.lean ====
section
/-! DEFINITION. What is well formed: a command on the ports (R66, by the rows of R65 as masks and
patterns, written apart from the decoder), and a set of implementation parameters (R8). A term of
`Instr` needs no check of its own: its operands' types admit exactly what the ports can carry. -/

namespace Sys2Proof

/-- The kind of a data operand. -/
def Din.kind : Din → DinKind
  | .nothing => .nothing
  | .otime _ _ => .otime
  | .bytes _ => .bytes

/-- The kind of a result. -/
def Dout.kind : Dout → DoutKind
  | .nothing => .nothing
  | .b2 _ => .b2
  | .b3 _ => .b3
  | .b8 _ => .b8
  | .b32 _ => .b32
  | .otime _ => .otime
  | .dur _ => .dur
  | .bytes _ => .bytes

/-- One row of the opcode map R65: the word's fixed bits (`mask`), their values (`pattern`), and the
kind of the data operand. -/
structure OpRow where
  mask : CmdWord
  pattern : CmdWord
  din : DinKind
deriving DecidableEq, Repr

/-- Whether a command word fits a row: its fixed bits have the row's values. -/
def OpRow.fits (r : OpRow) (w : CmdWord) : Bool := w &&& r.mask == r.pattern

/-- The rows of R65 for byte 0. -/
def opRowsByte0 : List OpRow :=
  [⟨0xFFFF, 0x0100, .nothing⟩, ⟨0xFFFC, 0x0200, .nothing⟩, ⟨0xFFFF, 0x0300, .nothing⟩,
   ⟨0xFFF8, 0x0400, .nothing⟩, ⟨0xFFFF, 0x0500, .nothing⟩, ⟨0xFFF8, 0x0600, .nothing⟩]

/-- The rows of R65 for the header scalars. -/
def opRowsScalars : List OpRow :=
  [⟨0xFFFF, 0x0800, .nothing⟩, ⟨0xFFFF, 0x0900, .nothing⟩, ⟨0xFFFF, 0x0A00, .nothing⟩,
   ⟨0xFFFF, 0x0B00, .nothing⟩, ⟨0xFFFF, 0x0C00, .nothing⟩, ⟨0xFFFF, 0x0D00, .nothing⟩]

/-- The rows of R65 for the timestamps. -/
def opRowsTimestamps : List OpRow :=
  [⟨0xFFFF, 0x1000, .nothing⟩, ⟨0xFFFF, 0x1100, .otime⟩, ⟨0xFFFF, 0x1200, .nothing⟩,
   ⟨0xFFFF, 0x1300, .otime⟩, ⟨0xFFFF, 0x1400, .nothing⟩, ⟨0xFFFF, 0x1500, .otime⟩,
   ⟨0xFFFF, 0x1600, .nothing⟩, ⟨0xFFFF, 0x1700, .otime⟩, ⟨0xFFFF, 0x1800, .nothing⟩,
   ⟨0xFFFF, 0x1900, .otime⟩]

/-- The rows of R65 for the metrics and the packet as a whole. -/
def opRowsPacket : List OpRow :=
  [⟨0xFFFF, 0x2000, .nothing⟩, ⟨0xFFFF, 0x2100, .nothing⟩, ⟨0xFFFF, 0x3000, .nothing⟩,
   ⟨0xFFFF, 0x3100, .bytes⟩, ⟨0xFFFF, 0x3200, .nothing⟩]

/-- The opcode map R65, in its order. -/
def opRows : List OpRow := opRowsByte0 ++ opRowsScalars ++ opRowsTimestamps ++ opRowsPacket

/-- R66: a command is legal when some row of R65 fits its word and lists its operand's kind. -/
def Command.wf (c : Command) : Bool := opRows.any fun r => r.fits c.word && r.din == c.din.kind

/-- The constraints of R8 on the open parameters: 10^7 <= TPS < 2^31 and BUF_MAX >= 48. HALVE and
ENC_TIE satisfy theirs by their type. -/
abbrev Config.lawful (g : Config) : Prop := 10000000 ≤ g.tps ∧ g.tps < 2 ^ 31 ∧ bufMin ≤ g.bufMax

end Sys2Proof
end

