-- ==== Sys2Proof/Decode.lean ====
section
/-! DEFINITION. Decoding of a command (R63 to R68), total on every word and operand, rejecting by
name; and the encoder, written from the same tables. The table-word entry point of the host stands
at the end. -/

namespace Sys2Proof

/-- The opcodes of R65, without operands. -/
inductive Opcode where
  | getLi | setLi | getVn | setVn | getMode | setMode
  | getStratum | getPoll | getPrecision | getRootDelay | getRootDispersion | getReferenceId
  | getRefTs | setRefTs | getOrgTs | setOrgTs | getRcvTs | setRcvTs | getXmtTs | setXmtTs
  | getDstTs | setDstTs
  | getRtt | getOffset
  | initDefault | load | readBuf
deriving DecidableEq, Repr

/-- Why a command is illegal (the five conditions of R66). All raise E_ILLEGAL. -/
inductive DecodeError where
  /-- R66.1: OPC is not in R65. -/
  | reservedOpcode
  /-- R66.2: RSV is not 00000. -/
  | reservedBits
  /-- R66.3: IMM is not 000 on a command without an immediate. -/
  | unusedImmediate
  /-- R66.4: SET_LI with IMM[2] = 1. -/
  | leapImmediate
  /-- R66.5: DIN is not of the kind R65 lists. -/
  | operandKind
deriving DecidableEq, Repr

/-- OPC, bits 15..8 of the command word (R63). -/
def opcOf (w : CmdWord) : BitVec 8 := w.extractLsb' 8 8

/-- RSV, bits 7..3 of the command word (R63). -/
def rsvOf (w : CmdWord) : BitVec 5 := w.extractLsb' 3 5

/-- IMM, bits 2..0 of the command word (R63). -/
def immOf (w : CmdWord) : BitVec 3 := w.extractLsb' 0 3

/-- The opcode map R65 read by its OPC column; every other value is reserved (R67). -/
def opcode? (opc : BitVec 8) : Option Opcode :=
  match opc.toNat with
  | 0x01 => some .getLi
  | 0x02 => some .setLi
  | 0x03 => some .getVn
  | 0x04 => some .setVn
  | 0x05 => some .getMode
  | 0x06 => some .setMode
  | 0x08 => some .getStratum
  | 0x09 => some .getPoll
  | 0x0A => some .getPrecision
  | 0x0B => some .getRootDelay
  | 0x0C => some .getRootDispersion
  | 0x0D => some .getReferenceId
  | 0x10 => some .getRefTs
  | 0x11 => some .setRefTs
  | 0x12 => some .getOrgTs
  | 0x13 => some .setOrgTs
  | 0x14 => some .getRcvTs
  | 0x15 => some .setRcvTs
  | 0x16 => some .getXmtTs
  | 0x17 => some .setXmtTs
  | 0x18 => some .getDstTs
  | 0x19 => some .setDstTs
  | 0x20 => some .getRtt
  | 0x21 => some .getOffset
  | 0x30 => some .initDefault
  | 0x31 => some .load
  | 0x32 => some .readBuf
  | _ => none

/-- The IMM column of R65: whether the command uses the immediate. -/
def Opcode.usesImm : Opcode → Bool
  | .setLi | .setVn | .setMode => true
  | .getLi | .getVn | .getMode => false
  | .getStratum | .getPoll | .getPrecision => false
  | .getRootDelay | .getRootDispersion | .getReferenceId => false
  | .getRefTs | .setRefTs | .getOrgTs | .setOrgTs | .getRcvTs | .setRcvTs => false
  | .getXmtTs | .setXmtTs | .getDstTs | .setDstTs => false
  | .getRtt | .getOffset | .initDefault | .load | .readBuf => false

/-- The DIN column of R65. -/
def Opcode.dinKind : Opcode → DinKind
  | .setRefTs | .setOrgTs | .setRcvTs | .setXmtTs | .setDstTs => .otime
  | .load => .bytes
  | .getLi | .setLi | .getVn | .setVn | .getMode | .setMode => .nothing
  | .getStratum | .getPoll | .getPrecision => .nothing
  | .getRootDelay | .getRootDispersion | .getReferenceId => .nothing
  | .getRefTs | .getOrgTs | .getRcvTs | .getXmtTs | .getDstTs => .nothing
  | .getRtt | .getOffset | .initDefault | .readBuf => .nothing

/-- The `Opt Time` an OTIME operand stands for (R61): `t` is ignored when the presence bit is 0. -/
def optTime (p : Bool) (t : Time) : Option Time := if p then some t else none

/-- The OTIME operand that carries an `Opt Time`; an absent one carries t = 0. -/
def Din.ofTime : Option Time → Din
  | none => .otime false 0
  | some t => .otime true t

/-- A command whose DIN kind is NONE. -/
def takeNothing (i : Instr) : Din → Option Instr
  | .nothing => some i
  | .otime _ _ => none
  | .bytes _ => none

/-- A command whose DIN kind is OTIME. -/
def takeTime (i : Option Time → Instr) : Din → Option Instr
  | .nothing => none
  | .otime p t => some (i (optTime p t))
  | .bytes _ => none

/-- A command whose DIN kind is BYTES. -/
def takeBytes (i : List Byte → Instr) : Din → Option Instr
  | .nothing => none
  | .otime _ _ => none
  | .bytes b => some (i b)

/-- The command of an opcode with its immediate (R64) and its data operand; none when the operand
is of another kind (R66.5). -/
def Opcode.build (op : Opcode) (imm : BitVec 3) (din : Din) : Option Instr :=
  match op with
  | .getLi => takeNothing .getLi din
  | .setLi => takeNothing (.setLi (imm.setWidth 2)) din
  | .getVn => takeNothing .getVn din
  | .setVn => takeNothing (.setVn imm) din
  | .getMode => takeNothing .getMode din
  | .setMode => takeNothing (.setMode imm) din
  | .getStratum => takeNothing .getStratum din
  | .getPoll => takeNothing .getPoll din
  | .getPrecision => takeNothing .getPrecision din
  | .getRootDelay => takeNothing .getRootDelay din
  | .getRootDispersion => takeNothing .getRootDispersion din
  | .getReferenceId => takeNothing .getReferenceId din
  | .getRefTs => takeNothing .getRefTs din
  | .setRefTs => takeTime .setRefTs din
  | .getOrgTs => takeNothing .getOrgTs din
  | .setOrgTs => takeTime .setOrgTs din
  | .getRcvTs => takeNothing .getRcvTs din
  | .setRcvTs => takeTime .setRcvTs din
  | .getXmtTs => takeNothing .getXmtTs din
  | .setXmtTs => takeTime .setXmtTs din
  | .getDstTs => takeNothing .getDstTs din
  | .setDstTs => takeTime .setDstTs din
  | .getRtt => takeNothing .getRtt din
  | .getOffset => takeNothing .getOffset din
  | .initDefault => takeNothing .initDefault din
  | .load => takeBytes .load din
  | .readBuf => takeNothing .readBuf din

/-- R66: decoding of a command, total, the five conditions in their order. -/
def decode (c : Command) : Except DecodeError Instr :=
  match opcode? (opcOf c.word) with
  | none => .error .reservedOpcode
  | some op =>
    if rsvOf c.word ≠ 0 then .error .reservedBits
    else if op.usesImm = false ∧ immOf c.word ≠ 0 then .error .unusedImmediate
    else if op = .setLi ∧ (immOf c.word).getLsbD 2 = true then .error .leapImmediate
    else
      match op.build (immOf c.word) c.din with
      | none => .error .operandKind
      | some i => .ok i

/-- A command word from its OPC and IMM fields, RSV zero (R63). -/
def wordOf (opc : BitVec 8) (imm : BitVec 3) : CmdWord := opc ++ (0#5 ++ imm)

/-- A command without immediate and without data operand. -/
def plainCommand (opc : BitVec 8) : Command := ⟨wordOf opc 0, .nothing⟩

/-- The encoder: the command word and data operand of each command (R63 to R65). -/
def encode : Instr → Command
  | .getLi => plainCommand 0x01
  | .setLi v => ⟨wordOf 0x02 (v.setWidth 3), .nothing⟩
  | .getVn => plainCommand 0x03
  | .setVn v => ⟨wordOf 0x04 v, .nothing⟩
  | .getMode => plainCommand 0x05
  | .setMode v => ⟨wordOf 0x06 v, .nothing⟩
  | .getStratum => plainCommand 0x08
  | .getPoll => plainCommand 0x09
  | .getPrecision => plainCommand 0x0A
  | .getRootDelay => plainCommand 0x0B
  | .getRootDispersion => plainCommand 0x0C
  | .getReferenceId => plainCommand 0x0D
  | .getRefTs => plainCommand 0x10
  | .setRefTs o => ⟨wordOf 0x11 0, Din.ofTime o⟩
  | .getOrgTs => plainCommand 0x12
  | .setOrgTs o => ⟨wordOf 0x13 0, Din.ofTime o⟩
  | .getRcvTs => plainCommand 0x14
  | .setRcvTs o => ⟨wordOf 0x15 0, Din.ofTime o⟩
  | .getXmtTs => plainCommand 0x16
  | .setXmtTs o => ⟨wordOf 0x17 0, Din.ofTime o⟩
  | .getDstTs => plainCommand 0x18
  | .setDstTs o => ⟨wordOf 0x19 0, Din.ofTime o⟩
  | .getRtt => plainCommand 0x20
  | .getOffset => plainCommand 0x21
  | .initDefault => plainCommand 0x30
  | .load b => ⟨wordOf 0x31 0, .bytes b⟩
  | .readBuf => plainCommand 0x32

/-- The DOUT column of R65: the kind of the result of each command. -/
def Instr.doutKind : Instr → DoutKind
  | .getLi => .b2
  | .setLi _ => .nothing
  | .getVn => .b3
  | .setVn _ => .nothing
  | .getMode => .b3
  | .setMode _ => .nothing
  | .getStratum => .b8
  | .getPoll => .b8
  | .getPrecision => .b8
  | .getRootDelay => .b32
  | .getRootDispersion => .b32
  | .getReferenceId => .b32
  | .getRefTs => .otime
  | .setRefTs _ => .nothing
  | .getOrgTs => .otime
  | .setOrgTs _ => .nothing
  | .getRcvTs => .otime
  | .setRcvTs _ => .nothing
  | .getXmtTs => .otime
  | .setXmtTs _ => .nothing
  | .getDstTs => .otime
  | .setDstTs _ => .nothing
  | .getRtt => .dur
  | .getOffset => .dur
  | .initDefault => .nothing
  | .load _ => .nothing
  | .readBuf => .bytes

/-- The data operand of zeros of a kind: OTIME with p = 0 and t = 0, BYTES of length 0
(DESIGN CHOICE, log 8). -/
def DinKind.zero : DinKind → Din
  | .nothing => .nothing
  | .otime => .otime false 0
  | .bytes => .bytes []

/-- The command a table word stands for: the word, with the data operand of zeros of the kind its
OPC takes (R68: the decoder knows the DIN kind from OPC alone; log 8). -/
def tableCommand (w : CmdWord) : Command :=
  ⟨w, match opcode? (opcOf w) with
      | none => .nothing
      | some op => op.dinKind.zero⟩

/-- The instruction the decoder reads from the opcode-table word `w` of `nbits` bits: the bits above
`nbits` are zero, and the data operand is zeros (log 8). -/
def decodeTableWord (nbits w : Nat) : Option Instr :=
  match decode (tableCommand (BitVec.ofNat cmdWidth (w % 2 ^ nbits))) with
  | .ok i => some i
  | .error _ => none

end Sys2Proof
end

