-- ==== Sys2Proof/Machine/State.lean ====
section
/-! DEFINITION. The machine's state, whole, as plain data (R22, R31, R32, R60 for a codec; R190 to
R197 for the host-side exchange), its reset (R33, R230, R233), and the reasons a step can stop. -/

namespace Sys2Proof.Machine

/-- The packet buffer BUF as a list of (offset, byte) pairs: offsets strictly rising, no byte equal
to 0x00, which is what an unlisted offset reads as (log 4). -/
abbrev Memory := List Host.Cell

/-- One codec instance: the state of R22 and its two output ports of R60. -/
structure Codec where
  /-- PV: a packet is held (R32). -/
  pv : Bool
  /-- LEN: the length of the packet in bytes. -/
  len : Nat
  /-- BUF: the packet's bytes, offsets 0 .. LEN-1 (R24, R25). -/
  buf : Memory
  /-- DV: the destination timestamp is present (R30). -/
  dv : Bool
  /-- DT: the destination timestamp's value (R30). -/
  dt : Time
  /-- ERRLOG: the first error code raised since reset, 0 for none (R31). -/
  errlog : BitVec 4
  /-- STATUS: 0 for OK, or the error code, of the last command (R60). -/
  status : BitVec 4
  /-- DOUT: the result of the last command, present only when it succeeded (R60). -/
  dout : Option Dout
deriving DecidableEq, Repr

/-- An instance right after reset (R33, R230). LEN, BUF and DT are unspecified there and
unobservable while PV = 0 (DESIGN CHOICE, log 3, log 4, log 5); the ports have given no response yet
(DESIGN CHOICE, log 6). -/
def Codec.reset : Codec :=
  { pv := false, len := 0, buf := [], dv := false, dt := 0, errlog := 0, status := 0, dout := none }

/-- A remote endpoint: an address and a port (R191). The spec gives an address no form, and it is kept
as bytes, of any count (DESIGN CHOICE, log 31). -/
structure Endpoint where
  address : List Byte
  port : BitVec 16
deriving DecidableEq, Repr

/-- The endpoint of a Client that no operation has created yet: the default port of R8, and no address
(DESIGN CHOICE, log 31). -/
def Endpoint.unset : Endpoint := { address := [], port := ntpPort }

/-- One datagram put on a Client's channel: the remote endpoint it goes to and its bytes (R190, R194). -/
structure Datagram where
  remote : Endpoint
  payload : List Byte
deriving DecidableEq, Repr

/-- What a host operation on a Client returns: nothing, a duration (R193, R196), or the reply packet,
named by the instance that holds it (R194). -/
inductive HostValue where
  | nothing
  | duration (d : Duration)
  | packet (codec : Nat)
deriving DecidableEq, Repr

/-- One Client (R190, R191, R193, R197). -/
structure Client where
  /-- TIMEOUT, in ticks (R193). -/
  timeout : Duration
  /-- The Client is released and its channel closed (R197). -/
  released : Bool
  /-- The one fixed remote endpoint (R190, R191). -/
  remote : Endpoint
  /-- The datagrams sent so far, oldest first (log 19). -/
  sent : List Datagram
  /-- The status of the last host operation, codes 0 .. 10 of R203. -/
  status : BitVec 4
  /-- The value the last host operation returned, present only when it succeeded. -/
  value : Option HostValue
deriving DecidableEq, Repr

/-- A new Client for a remote endpoint (R191, R233): TIMEOUT = DEFAULT_TIMEOUT, which is
15000·TPS/1000 ticks, and not released. -/
def Client.fresh (g : Config) (remote : Endpoint) : Client :=
  { timeout := BitVec.ofNat 64 (defaultTimeoutMs * g.tps / 1000), released := false, remote := remote
    sent := [], status := 0, value := none }

/-- What the channel does in one exchange (R190, R194, R212): any reply bytes, or a failure. -/
inductive ChannelAnswer where
  /-- Sending fails. -/
  | sendFails
  /-- No reply arrives within the timeout. -/
  | noReply
  /-- Receiving fails. -/
  | receiveFails
  /-- One reply datagram arrives in time. -/
  | reply (bytes : List Byte)
deriving DecidableEq, Repr

/-- The line of the pseudocode of R194 to R196 that an exchange runs next, with the value it has
read so far. -/
inductive Phase where
  | initRequest
  | stampRequest
  | readRequest
  | send (bytes : List Byte)
  | receive
  | loadReply (bytes : List Byte)
  | readOrigin
  | copyOrigin (o : Option Time)
  | stampReply
  | readOffset
deriving DecidableEq, Repr

/-- An exchange in progress (R194 to R196). -/
structure Exchange where
  /-- The Client that runs it. -/
  client : Nat
  /-- REQ: the request instance. -/
  req : Nat
  /-- RSP: the reply instance. -/
  rsp : Nat
  /-- What the channel does (log 15). -/
  channel : ChannelAnswer
  /-- The clock reading at the request (R192, R195; log 15). -/
  nowRequest : Time
  /-- The clock reading at receipt (R192, R194; log 15). -/
  nowReceipt : Time
  /-- Whether the operation is getCorrectionOffset (R196), which returns the offset, not the packet. -/
  wantOffset : Bool
  /-- The line it runs next. -/
  phase : Phase
deriving DecidableEq, Repr

/-- One operation of the host (R21, R190). Numbers name instances and Clients. The channel's answer
and the clock's readings, which come from outside the machine, travel with the operation (log 15). -/
inductive HostOp where
  /-- Issue a command to an instance (R60). -/
  | command (codec : Nat) (c : Command)
  /-- Power-on or creation of an instance (R230). -/
  | resetCodec (codec : Nat)
  /-- Creation of a Client for a remote endpoint, its hostname resolved where it was given one (R191). -/
  | newClient (client : Nat) (remote : Endpoint)
  /-- Get the timeout (R193). -/
  | getTimeout (client : Nat)
  /-- Set the timeout (R193). -/
  | setTimeout (client : Nat) (d : Duration)
  /-- query(REQ) (R194). -/
  | query (client req rsp : Nat) (channel : ChannelAnswer) (nowReceipt : Time)
  /-- query() (R195). -/
  | queryDefault (client req rsp : Nat) (channel : ChannelAnswer) (nowRequest nowReceipt : Time)
  /-- getCorrectionOffset() (R196). -/
  | getCorrectionOffset (client req rsp : Nat) (channel : ChannelAnswer)
      (nowRequest nowReceipt : Time)
  /-- Release of a Client (R197). -/
  | release (client : Nat)
deriving DecidableEq, Repr

/-- The machine: the implementation parameters, the codec instances, the Clients, the exchange in
progress, and what the host has still to issue. -/
structure State where
  /-- The implementation parameters (R8), which no step changes. -/
  cfg : Config
  /-- The instances that are not in their reset state, numbers strictly rising (R8, R37; log 13). -/
  codecs : List (Nat × Codec)
  /-- The Clients that are not as newly created, numbers strictly rising (R199; log 13). -/
  clients : List (Nat × Client)
  /-- The exchange in progress, if any (R194). -/
  run : Option Exchange
  /-- MODEL'S OWN: the instance the present command is issued to (log 7). -/
  sel : Nat
  /-- MODEL'S OWN: the host operations not yet taken, oldest first (R21; log 7). -/
  pending : List HostOp
deriving DecidableEq, Repr

/-- Why the machine stops. No well-formed state reaches either (log 11, log 12). -/
inductive Fault where
  /-- Raised by every command that reads or writes BUF in a state with PV = 1 and LEN < 48, where a
  fixed offset would lie outside BUF (R22 and R44 rule such a state out). Safe. -/
  | shortPacket
  /-- Raised by the exchange when a codec command it issued ends OK with a result of another kind
  than R62 gives that command. Safe. -/
  | wrongResultKind
deriving DecidableEq, Repr

/-- Why an instruction has no meaning. -/
inductive Refusal where
  /-- Raised by `exec` for an instruction that is not modelled yet. Safe. -/
  | notModelled (mnemonic : String)
deriving DecidableEq, Repr

/-- The machine right after reset, for given implementation parameters: every instance in the reset
state of R33, every Client new (R233), nothing in progress and nothing issued. -/
def State.resetWith (g : Config) : State :=
  { cfg := g, codecs := [], clients := [], run := none, sel := 0, pending := [] }

/-- The machine right after reset (R33, R230), with the default parameters of R8. -/
def State.reset : State := State.resetWith Config.default

/-- What one step answers. -/
abbrev Result := Host.Outcome State Fault Refusal

end Sys2Proof.Machine
end

