-- ==== Sys2Proof/Machine/Operands.lean ====
section
/-! DEFINITION. The operand and field forms of the commands: the sub-fields of byte 0 (R100, R101),
the wire timestamps and their converter (R141, R142, R148), and the halving of the offset (R173). -/

namespace Sys2Proof.Machine

/-- The three sub-fields of byte 0 (R100). -/
inductive SubField where
  | li
  | vn
  | mode
deriving DecidableEq, Repr

/-- WIDTH_F (R100). -/
abbrev SubField.width : SubField → Nat
  | .li => 2
  | .vn => 3
  | .mode => 3

/-- SHIFT_F (R100). -/
def SubField.shift : SubField → Nat
  | .li => 6
  | .vn => 3
  | .mode => 0

/-- MASK_F (R100). -/
def SubField.mask : SubField → Byte
  | .li => 0xC0
  | .vn => 0x38
  | .mode => 0x07

/-- EXTRACT(b, F) (R101). -/
def extract (b : Byte) (f : SubField) : BitVec f.width := ((b &&& f.mask) >>> f.shift).setWidth f.width

/-- INSERT(b, F, v) (R101). -/
def insert (b : Byte) (f : SubField) (v : BitVec f.width) : Byte :=
  (b &&& ~~~f.mask) ||| ((v.setWidth 8 <<< f.shift) &&& f.mask)

/-- The four wire timestamps (R148). -/
inductive WireTs where
  | ref
  | org
  | rcv
  | xmt
deriving DecidableEq, Repr

/-- The offset of a wire timestamp in BUF (R148). -/
def WireTs.offset : WireTs → Nat
  | .ref => 16
  | .org => 24
  | .rcv => 32
  | .xmt => 40

/-- DECODE (R141): a 64-bit 32.32 field value as an `Opt Time`. -/
def decodeTime (tps : Nat) (r : BitVec 64) : Option Time :=
  if r = 0 then none else some (BitVec.ofNat 64 (r.toNat * tps / 2 ^ 32))

/-- The value of a tie just above the integer `n`, by ENC_TIE (R8). -/
def pickTie (rule : TieRule) (n : Int) : Int :=
  match rule with
  | .halfUp => n + 1
  | .halfDown => n
  | .halfEven => if n % 2 = 0 then n else n + 1
  | .unspecified => if Config.tieUp n then n + 1 else n

/-- The rational `num / den` rounded to the nearest integer, ties by the rule (R142). -/
def roundNearest (rule : TieRule) (num : Int) (den : Nat) : Int :=
  if 2 * (num % den) < den then num / den
  else if 2 * (num % den) = den then pickTie rule (num / den)
  else num / den + 1

/-- The rounded field value of a tick count in ENCODE, before its range check (R142). -/
def encodedTicks (g : Config) (t : Time) : Int := roundNearest g.encTie (t.toInt * 2 ^ 32) g.tps

/-- ENCODE (R142): an `Opt Time` as a 64-bit field value; none where it raises E_TS_RANGE. -/
def encodeTime (g : Config) : Option Time → Option (BitVec 64)
  | none => some 0
  | some t =>
    if encodedTicks g t < 0 ∨ encodedTicks g t > 2 ^ 64 - 1 then none
    else some (BitVec.ofInt 64 (encodedTicks g t))

/-- HALVE (R173), for each value of the parameter. -/
def halveBy (rule : HalveRule) (n : Int) : Int :=
  match rule with
  | .towardZero => n.tdiv 2
  | .down => n / 2
  | .up => (n + 1) / 2
  | .halfEven => if n % 2 = 0 then n / 2 else if n / 2 % 2 = 0 then n / 2 else n / 2 + 1
  | .unspecified => if n % 2 = 0 then n / 2 else if Config.halveUp n then n / 2 + 1 else n / 2

end Sys2Proof.Machine
end

