-- ==== Sys2Proof/Machine/Sparse.lean ====
section
/-! DEFINITION. A sparse map from numbers to values, as a list in one canonical form: keys strictly
rising, no value equal to the one an unlisted key has. The packet buffer, the instances and the
Clients are held so (log 4, log 13). -/

namespace Sys2Proof.Machine

/-- The value at key `k`; `d` is what an unlisted key has. -/
def Sparse.get {α : Type} (d : α) (k : Nat) : List (Nat × α) → α
  | [] => d
  | (j, v) :: rest => if j = k then v else Sparse.get d k rest

/-- The list without its entries at key `k`. -/
def Sparse.erase {α : Type} (k : Nat) : List (Nat × α) → List (Nat × α)
  | [] => []
  | (j, v) :: rest => if j = k then Sparse.erase k rest else (j, v) :: Sparse.erase k rest

/-- The list with an entry put before the first larger key. -/
def Sparse.insert {α : Type} (k : Nat) (v : α) : List (Nat × α) → List (Nat × α)
  | [] => [(k, v)]
  | (j, w) :: rest =>
    if k < j then (k, v) :: (j, w) :: rest else (j, w) :: Sparse.insert k v rest

/-- The map with `v` at key `k`: writing the value an unlisted key has removes the entry. -/
def Sparse.put {α : Type} [DecidableEq α] (d : α) (k : Nat) (v : α) (l : List (Nat × α)) :
    List (Nat × α) :=
  if v = d then Sparse.erase k l else Sparse.insert k v (Sparse.erase k l)

/-- The canonical form. -/
def Sparse.wf {α : Type} [DecidableEq α] (d : α) : List (Nat × α) → Bool
  | [] => true
  | (k, v) :: rest => decide (v ≠ d) && rest.all (fun c => decide (k < c.1)) && Sparse.wf d rest

end Sys2Proof.Machine
end

