-- ==== Sys2Proof/Machine/Ops.lean ====
section
/-! DEFINITION. The named operations every meaning is written over: bytes and big-endian words of
BUF (R13, R40, R41), the instances and Clients by number, ending a command with a result (R14,
R202), raising an error (R200, R201) and the PV check (R71). There is no return from an error: the
block has no handler (R217). -/

namespace Sys2Proof.Machine

/-- BUF[a] (R13). -/
def Memory.read (m : Memory) (a : Nat) : Byte := Sparse.get 0 a m

/-- BUF[a] <- b (R13). -/
def Memory.write (m : Memory) (a : Nat) (b : Byte) : Memory := Sparse.put 0 a b m

/-- The canonical form of a memory. -/
def Memory.wf (m : Memory) : Bool := Sparse.wf 0 m

/-- MemRead(off, 4) (R13): big-endian. -/
def Memory.read32 (m : Memory) (off : Nat) : BitVec 32 :=
  m.read off ++ m.read (off + 1) ++ m.read (off + 2) ++ m.read (off + 3)

/-- MemRead(off, 8) = SEC(off) ++ FRAC(off) (R41). -/
def Memory.read64 (m : Memory) (off : Nat) : BitVec 64 := m.read32 off ++ m.read32 (off + 4)

/-- Bytes written one after another from offset `off` up. -/
def Memory.writeBytes (m : Memory) (off : Nat) : List Byte → Memory
  | [] => m
  | b :: bs => (Memory.writeBytes m (off + 1) bs).write off b

/-- The bytes of a 64-bit value, most significant first (R40). -/
def bytesOf64 (v : BitVec 64) : List Byte :=
  [v.extractLsb' 56 8, v.extractLsb' 48 8, v.extractLsb' 40 8, v.extractLsb' 32 8,
   v.extractLsb' 24 8, v.extractLsb' 16 8, v.extractLsb' 8 8, v.extractLsb' 0 8]

/-- MemWrite(off, 8, v) (R13): big-endian. -/
def Memory.write64 (m : Memory) (off : Nat) (v : BitVec 64) : Memory :=
  m.writeBytes off (bytesOf64 v)

/-- The `n` bytes at offsets off .. off+n-1. -/
def Memory.readBytes (m : Memory) (off : Nat) : Nat → List Byte
  | 0 => []
  | n + 1 => m.read off :: Memory.readBytes m (off + 1) n

/-- A buffer that holds exactly the given bytes from offset 0 up (R183: copy). -/
def Memory.ofBytes (bs : List Byte) : Memory := Memory.writeBytes [] 0 bs

/-- Instance number `k`; an unlisted one is in its reset state (log 13). -/
def State.codec (s : State) (k : Nat) : Codec := Sparse.get Codec.reset k s.codecs

/-- The state with instance number `k` replaced. -/
def State.putCodec (s : State) (k : Nat) (x : Codec) : State :=
  { s with codecs := Sparse.put Codec.reset k x s.codecs }

/-- Client number `c`; an unlisted one is new (log 13). -/
def State.client (s : State) (c : Nat) : Client :=
  Sparse.get (Client.fresh s.cfg Endpoint.unset) c s.clients

/-- The state with Client number `c` replaced. -/
def State.putClient (s : State) (c : Nat) (x : Client) : State :=
  { s with clients := Sparse.put (Client.fresh s.cfg Endpoint.unset) c x s.clients }

/-- The state with instance `k` chosen as the one the next command is issued to. -/
def State.select (s : State) (k : Nat) : State := { s with sel := k }

/-- The instance the present command is issued to. -/
def State.cur (s : State) : Codec := s.codec s.sel

/-- The state with the instance the present command is issued to replaced. -/
def State.setCur (s : State) (x : Codec) : State := s.putCodec s.sel x

/-- The errors a codec raises (R203, codes 1 to 7). -/
inductive Err where
  | size
  | state
  | modeDomain
  | tsRange
  | overflow
  | illegal
  | noPacket
deriving DecidableEq, Repr

/-- The error codes (R203). -/
def Err.code : Err → BitVec 4
  | .size => 1
  | .state => 2
  | .modeDomain => 3
  | .tsRange => 4
  | .overflow => 5
  | .illegal => 6
  | .noPacket => 7

/-- What raising an error does to the instance (R200, R201): STATUS is the code, DOUT carries no
result, ERRLOG takes the code if it held 0, and PV, LEN, BUF, DV and DT keep their values. -/
def Codec.fail (x : Codec) (e : Err) : Codec :=
  { x with
    errlog := if x.errlog = 0 then e.code else x.errlog
    status := e.code
    dout := none }

/-- What ending a command OK does to the instance (R202): STATUS is 0 and DOUT carries the result. -/
def Codec.ok (x : Codec) (d : Dout) : Codec := { x with status := 0, dout := some d }

/-- The instance with BUF replaced and nothing else. -/
def Codec.withBuf (x : Codec) (m : Memory) : Codec := { x with buf := m }

/-- TAKING AN EXCEPTION: `raise e` (R14, R200), on the instance the command is issued to. -/
def raise (e : Err) (s : State) : Result := .next (s.setCur (s.cur.fail e))

/-- `respond(d)` (R14, R202): the command ends OK and leaves the instance as `x`. -/
def respond (d : Dout) (x : Codec) (s : State) : Result := .next (s.setCur (x.ok d))

/-- The check of R71 before the rule of a command other than INIT_DEFAULT and LOAD: E_NO_PACKET while
PV = 0. A packet shorter than 48 bytes, which no well-formed state holds (R22, R44), stops the
machine (log 11). -/
def withPacket (s : State) (body : Codec → Result) : Result :=
  if s.cur.pv = false then raise .noPacket s
  else if s.cur.len < bufMin then .fault .shortPacket
  else body s.cur

end Sys2Proof.Machine
end

