-- ==== Sys2Proof/Machine/Flags.lean ====
section
/-! DEFINITION. The predicates of R23, computed and never stored, the range check of R175, and the
integer and name views of R29, R28 and R126. The block has no condition codes. -/

namespace Sys2Proof.Machine

/-- The raw bits of a wire timestamp: MemRead(offset, 8) (R148). -/
def Codec.rawTs (x : Codec) (f : WireTs) : BitVec 64 := x.buf.read64 f.offset

/-- PRES_REF, PRES_ORG, PRES_RCV, PRES_XMT (R23). -/
def Codec.present (x : Codec) (f : WireTs) : Bool := x.rawTs f != 0

/-- The destination timestamp as an `Opt Time` (R157). -/
def Codec.destination (x : Codec) : Option Time := if x.dv then some x.dt else none

/-- Int64 (R10): whether an integer lies in [-2^63, 2^63 - 1]. -/
def fitsInt64 (n : Int) : Bool := decide (-(2 ^ 63) ≤ n) && decide (n ≤ 2 ^ 63 - 1)

/-- The names of the leap indicator's values (R29). -/
inductive LeapIndicator where
  | noWarning
  | lastMinute61
  | lastMinute59
  | alarm
deriving DecidableEq, Repr

/-- The leap indicator a 2-bit value names (R29). -/
def leapIndicator (v : BitVec 2) : LeapIndicator :=
  if v = 0 then .noWarning else if v = 1 then .lastMinute61 else if v = 2 then .lastMinute59 else .alarm

/-- The AssociationMode domain (R28). -/
inductive AssociationMode where
  | client
  | server
deriving DecidableEq, Repr

/-- The association mode a 3-bit value names; none for a value outside {3, 4} (R28). -/
def associationMode (v : BitVec 3) : Option AssociationMode :=
  if v = 3 then some .client else if v = 4 then some .server else none

/-- The integer view of GET_STRATUM (R126). -/
def stratumView (b : Byte) : Nat := b.toNat

/-- The integer view of GET_POLL and GET_PRECISION (R126): two's complement. -/
def exponentView (b : Byte) : Int := b.toInt

/-- The integer view of GET_REFERENCE_ID (R126). -/
def referenceIdView (v : BitVec 32) : Nat := v.toNat

end Sys2Proof.Machine
end

