-- ==== Sys2Proof/Machine/ByteZero.lean ====
section
/-! DEFINITION. The byte-0 commands (40_bitfields.md, R103 to R108). -/

namespace Sys2Proof.Machine

/-- Read a sub-field of byte 0 and return it as the given kind of result. -/
def getSubField (f : SubField) (kind : BitVec f.width → Dout) (s : State) : Result :=
  withPacket s fun x => respond (kind (extract (x.buf.read 0) f)) x s

/-- Write a sub-field of byte 0, preserving the others (R26). -/
def setSubField (f : SubField) (v : BitVec f.width) (s : State) : Result :=
  withPacket s fun x =>
    respond .nothing (x.withBuf (x.buf.write 0 (insert (x.buf.read 0) f v))) s

/-- GET_LI (R103). -/
def execGetLi (s : State) : Result := getSubField .li Dout.b2 s

/-- SET_LI v (R104). -/
def execSetLi (v : BitVec 2) (s : State) : Result := setSubField .li v s

/-- GET_VN (R105). -/
def execGetVn (s : State) : Result := getSubField .vn Dout.b3 s

/-- SET_VN v (R106). -/
def execSetVn (v : BitVec 3) (s : State) : Result := setSubField .vn v s

/-- GET_MODE (R107). -/
def execGetMode (s : State) : Result := getSubField .mode Dout.b3 s

/-- Whether SET_MODE stores a value (R108): always when MODE_STRICT = 0, only 3 and 4 when it is 1. -/
def modeAllowed (g : Config) (v : BitVec 3) : Bool := !g.modeStrict || v == 3 || v == 4

/-- SET_MODE v (R108). -/
def execSetMode (v : BitVec 3) (s : State) : Result :=
  withPacket s fun _ => if modeAllowed s.cfg v then setSubField .mode v s else raise .modeDomain s

end Sys2Proof.Machine
end

