-- ==== Sys2Proof/Machine/Metrics.lean ====
section
/-! DEFINITION. The derived metrics (43_metrics.md, R170 to R175): exact integer arithmetic, each
result checked against Int64. -/

namespace Sys2Proof.Machine

/-- The four required timestamps t0 to t3 (R170), in ticks. -/
structure FourTimes where
  t0 : Int
  t1 : Int
  t2 : Int
  t3 : Int
deriving DecidableEq, Repr

/-- REQUIRED (R170): origin, receive, transmit and destination, or none where one is absent. -/
def required (g : Config) (x : Codec) : Option FourTimes :=
  match decodeTime g.tps (x.rawTs .org), decodeTime g.tps (x.rawTs .rcv),
        decodeTime g.tps (x.rawTs .xmt), x.destination with
  | some t0, some t1, some t2, some t3 => some ⟨t0.toInt, t1.toInt, t2.toInt, t3.toInt⟩
  | _, _, _, _ => none

/-- `a`, the way out: t1 - t0 (R171, R172). -/
def FourTimes.out (f : FourTimes) : Int := f.t1 - f.t0

/-- `b`, the way back: t3 - t2 (R171, R172). -/
def FourTimes.back (f : FourTimes) : Int := f.t3 - f.t2

/-- The round-trip time of four timestamps, or none where E_OVERFLOW is raised (R171). -/
def roundTrip (f : FourTimes) : Option Duration :=
  if fitsInt64 f.out && fitsInt64 f.back && fitsInt64 (f.out + f.back) then
    some (BitVec.ofInt 64 (f.out + f.back))
  else none

/-- The correction offset of four timestamps, or none where E_OVERFLOW is raised (R172). -/
def correctionOffset (g : Config) (f : FourTimes) : Option Duration :=
  if fitsInt64 f.out && fitsInt64 f.back && fitsInt64 (f.out - f.back) then
    some (BitVec.ofInt 64 (halveBy g.halve (f.out - f.back)))
  else none

/-- Both metric commands: E_STATE first, then E_OVERFLOW, else the duration (R214). -/
def metric (formula : FourTimes → Option Duration) (s : State) : Result :=
  withPacket s fun x =>
    match required s.cfg x with
    | none => raise .state s
    | some f =>
      match formula f with
      | none => raise .overflow s
      | some d => respond (.dur d) x s

/-- GET_RTT (R171). -/
def execGetRtt (s : State) : Result := metric roundTrip s

/-- GET_OFFSET (R172). -/
def execGetOffset (s : State) : Result := metric (correctionOffset s.cfg) s

end Sys2Proof.Machine
end

