-- ==== Sys2Proof/Machine/Packet.lean ====
section
/-! DEFINITION. The commands on the packet as a whole (44_buffer.md, R180 to R186). -/

namespace Sys2Proof.Machine

/-- Byte 0 of the default packet: mode, then version, inserted into 0x00 (R180). -/
def defaultByte0 : Byte := insert (insert 0 .mode defaultMode) .vn defaultVersion

/-- What INIT_DEFAULT writes (R180): 48 zero bytes with mode and version set, DV <- 0, PV <- 1. -/
def Codec.initialised (x : Codec) : Codec :=
  { x with pv := true, len := bufMin, buf := Memory.write [] 0 defaultByte0, dv := false }

/-- INIT_DEFAULT (R180): runs whether PV is 0 or 1. -/
def execInitDefault (s : State) : Result := respond .nothing s.cur.initialised s

/-- Whether LOAD accepts an operand's length (R183): 48 <= n <= BUF_MAX. -/
def lengthAccepted (g : Config) (n : Nat) : Bool := decide (bufMin ≤ n) && decide (n ≤ g.bufMax)

/-- What LOAD writes (R183): every byte verbatim, LEN <- n, DV <- 0, PV <- 1. -/
def Codec.loaded (x : Codec) (b : List Byte) : Codec :=
  { x with pv := true, len := b.length, buf := Memory.ofBytes b, dv := false }

/-- LOAD b (R183): runs whether PV is 0 or 1. -/
def execLoad (b : List Byte) (s : State) : Result :=
  if lengthAccepted s.cfg b.length then respond .nothing (s.cur.loaded b) s else raise .size s

/-- The packet's bytes, BUF[0 .. LEN-1] (R186). -/
def Codec.bytes (x : Codec) : List Byte := x.buf.readBytes 0 x.len

/-- READ_BUF (R186). -/
def execReadBuf (s : State) : Result := withPacket s fun x => respond (.bytes x.bytes) x s

end Sys2Proof.Machine
end

