-- ==== Sys2Proof/Machine/Scalars.lean ====
section
/-! DEFINITION. The header scalar commands (41_scalars.md, R120 to R125): raw bytes and big-endian
words, with no transformation. -/

namespace Sys2Proof.Machine

/-- Return one byte of the header. -/
def getByte (off : Nat) (s : State) : Result :=
  withPacket s fun x => respond (.b8 (x.buf.read off)) x s

/-- Return one 32-bit big-endian word of the header. -/
def getWord (off : Nat) (s : State) : Result :=
  withPacket s fun x => respond (.b32 (x.buf.read32 off)) x s

/-- GET_STRATUM (R120). -/
def execGetStratum (s : State) : Result := getByte 1 s

/-- GET_POLL (R121). -/
def execGetPoll (s : State) : Result := getByte 2 s

/-- GET_PRECISION (R122). -/
def execGetPrecision (s : State) : Result := getByte 3 s

/-- GET_ROOT_DELAY (R123). -/
def execGetRootDelay (s : State) : Result := getWord 4 s

/-- GET_ROOT_DISPERSION (R124). -/
def execGetRootDispersion (s : State) : Result := getWord 8 s

/-- GET_REFERENCE_ID (R125). -/
def execGetReferenceId (s : State) : Result := getWord 12 s

end Sys2Proof.Machine
end

