-- ==== Sys2Proof/Machine/Timestamps.lean ====
section
/-! DEFINITION. The timestamp commands (42_timestamps.md, R149 to R158). -/

namespace Sys2Proof.Machine

/-- Return a wire timestamp through DECODE (R141). -/
def getTimestamp (f : WireTs) (s : State) : Result :=
  withPacket s fun x => respond (.otime (decodeTime s.cfg.tps (x.rawTs f))) x s

/-- Write a wire timestamp through ENCODE (R142), which may raise E_TS_RANGE. -/
def setTimestamp (f : WireTs) (o : Option Time) (s : State) : Result :=
  withPacket s fun x =>
    match encodeTime s.cfg o with
    | none => raise .tsRange s
    | some r => respond .nothing (x.withBuf (x.buf.write64 f.offset r)) s

/-- GET_REF_TS (R149). -/
def execGetRefTs (s : State) : Result := getTimestamp .ref s

/-- SET_REF_TS o (R150). -/
def execSetRefTs (o : Option Time) (s : State) : Result := setTimestamp .ref o s

/-- GET_ORG_TS (R151). -/
def execGetOrgTs (s : State) : Result := getTimestamp .org s

/-- SET_ORG_TS o (R152). -/
def execSetOrgTs (o : Option Time) (s : State) : Result := setTimestamp .org o s

/-- GET_RCV_TS (R153). -/
def execGetRcvTs (s : State) : Result := getTimestamp .rcv s

/-- SET_RCV_TS o (R154). -/
def execSetRcvTs (o : Option Time) (s : State) : Result := setTimestamp .rcv o s

/-- GET_XMT_TS (R155). -/
def execGetXmtTs (s : State) : Result := getTimestamp .xmt s

/-- SET_XMT_TS o (R156). -/
def execSetXmtTs (o : Option Time) (s : State) : Result := setTimestamp .xmt o s

/-- GET_DST_TS (R157): DT exactly, with no conversion. -/
def execGetDstTs (s : State) : Result :=
  withPacket s fun x => respond (.otime x.destination) x s

/-- What SET_DST_TS writes (R158): an absent operand clears DV and leaves DT alone (log 5). -/
def Codec.setDestination (x : Codec) : Option Time → Codec
  | none => { x with dv := false }
  | some t => { x with dv := true, dt := t }

/-- SET_DST_TS o (R158): any Int64, and BUF is not touched. -/
def execSetDstTs (o : Option Time) (s : State) : Result :=
  withPacket s fun x => respond .nothing (x.setDestination o) s

end Sys2Proof.Machine
end

