-- ==== Sys2Proof/Machine/Dispatch.lean ====
section
/-! DEFINITION. One arm per command (R65, R71): the meaning each command has. -/

namespace Sys2Proof.Machine

/-- The meaning of a decoded command on the instance it is issued to (R71). -/
def exec (i : Instr) (s : State) : Host.Outcome State Fault Refusal :=
  match i with
  | .getLi => Sys2Proof.Machine.execGetLi s
  | .setLi v => Sys2Proof.Machine.execSetLi v s
  | .getVn => Sys2Proof.Machine.execGetVn s
  | .setVn v => Sys2Proof.Machine.execSetVn v s
  | .getMode => Sys2Proof.Machine.execGetMode s
  | .setMode v => Sys2Proof.Machine.execSetMode v s
  | .getStratum => Sys2Proof.Machine.execGetStratum s
  | .getPoll => Sys2Proof.Machine.execGetPoll s
  | .getPrecision => Sys2Proof.Machine.execGetPrecision s
  | .getRootDelay => Sys2Proof.Machine.execGetRootDelay s
  | .getRootDispersion => Sys2Proof.Machine.execGetRootDispersion s
  | .getReferenceId => Sys2Proof.Machine.execGetReferenceId s
  | .getRefTs => Sys2Proof.Machine.execGetRefTs s
  | .setRefTs o => Sys2Proof.Machine.execSetRefTs o s
  | .getOrgTs => Sys2Proof.Machine.execGetOrgTs s
  | .setOrgTs o => Sys2Proof.Machine.execSetOrgTs o s
  | .getRcvTs => Sys2Proof.Machine.execGetRcvTs s
  | .setRcvTs o => Sys2Proof.Machine.execSetRcvTs o s
  | .getXmtTs => Sys2Proof.Machine.execGetXmtTs s
  | .setXmtTs o => Sys2Proof.Machine.execSetXmtTs o s
  | .getDstTs => Sys2Proof.Machine.execGetDstTs s
  | .setDstTs o => Sys2Proof.Machine.execSetDstTs o s
  | .getRtt => Sys2Proof.Machine.execGetRtt s
  | .getOffset => Sys2Proof.Machine.execGetOffset s
  | .initDefault => Sys2Proof.Machine.execInitDefault s
  | .load b => Sys2Proof.Machine.execLoad b s
  | .readBuf => Sys2Proof.Machine.execReadBuf s

end Sys2Proof.Machine
end

