-- ==== Sys2Proof/Machine/Issue.lean ====
section
/-! DEFINITION. Issuing one command to one instance: the top-level step of R71, over its ports. -/

namespace Sys2Proof.Machine

/-- A command on the ports of the selected instance (R71): E_ILLEGAL where it does not decode (R66,
R209), before any state is read; else the meaning of what it decodes to. -/
def runCommand (c : Command) (s : State) : Result :=
  match decode c with
  | .error _ => raise .illegal s
  | .ok i => exec i s

/-- A command issued to instance `k`. -/
def issue (k : Nat) (c : Command) (s : State) : Result := runCommand c (s.select k)

end Sys2Proof.Machine
end

