-- ==== Sys2Proof/Machine/Exchange.lean ====
section
/-! DEFINITION. The client exchange (45_exchange.md, R190 to R198): the host-side Client that drives
two codec instances with codec commands, one line of the spec's pseudocode a step (log 27), and its
timeout and release. -/

namespace Sys2Proof.Machine

/-- The errors of the exchange (R203, codes 8 to 10), never written to a codec instance. -/
inductive HostErr where
  | range
  | transport
  | released
deriving DecidableEq, Repr

/-- The error codes (R203). -/
def HostErr.code : HostErr → BitVec 4
  | .range => 8
  | .transport => 9
  | .released => 10

/-- A host operation on Client `c` ends OK with a value. -/
def answer (c : Nat) (v : HostValue) (s : State) : State :=
  s.putClient c { s.client c with status := 0, value := some v }

/-- A host operation on Client `c` ends with an error status and no value. -/
def reject (c : Nat) (code : BitVec 4) (s : State) : State :=
  s.putClient c { s.client c with status := code, value := none }

/-- The timeout is below MIN_TIMEOUT, 1 ms = TPS/1000 ticks (R193), compared exactly (log 17). -/
def belowMinTimeout (g : Config) (d : Duration) : Bool :=
  decide (d.toInt * 1000 < (minTimeoutMs * g.tps : Nat))

/-- Get the timeout (R193). -/
def getTimeout (c : Nat) (s : State) : State := answer c (.duration (s.client c).timeout) s

/-- Set the timeout (R193): X_RANGE below 1 ms, before any change. -/
def setTimeout (c : Nat) (d : Duration) (s : State) : State :=
  if belowMinTimeout s.cfg d then reject c HostErr.range.code s
  else s.putClient c { s.client c with timeout := d, status := 0, value := some .nothing }

/-- Release a Client (R197): its channel is closed; a second release does nothing more. -/
def releaseClient (c : Nat) (s : State) : State :=
  s.putClient c { s.client c with released := true, status := 0, value := some .nothing }

/-- Create a Client for a remote endpoint (R191, R233). -/
def createClient (c : Nat) (remote : Endpoint) (s : State) : State :=
  s.putClient c (Client.fresh s.cfg remote)

/-- Begin an exchange (R194 to R196): X_RELEASED on a released Client, with nothing else changed
(R197; log 16). -/
def beginExchange (x : Exchange) (s : State) : State :=
  if (s.client x.client).released then reject x.client HostErr.released.code s
  else { s with run := some x }

/-- The exchange goes on with another line. -/
def State.goTo (s : State) (x : Exchange) (p : Phase) : State :=
  { s with run := some { x with phase := p } }

/-- The exchange ends with a value. -/
def endOk (x : Exchange) (v : HostValue) (s : State) : State :=
  answer x.client v { s with run := none }

/-- The exchange ends with an error: the rest of it is skipped. -/
def endError (x : Exchange) (code : BitVec 4) (s : State) : State :=
  reject x.client code { s with run := none }

/-- A codec command issued by the Client. Its error propagates to the caller and ends the exchange
(45_exchange.md, Notation; D26). -/
def call (x : Exchange) (k : Nat) (c : Command) (cont : Dout → State → Result) (s : State) : Result :=
  match issue k c s with
  | .next t =>
    if (t.codec k).status ≠ 0 then .next (endError x (t.codec k).status t)
    else
      match (t.codec k).dout with
      | some d => cont d t
      | none => .fault .wrongResultKind
  | .fault r => .fault r
  | .refused r => .refused r

/-- The continuation of a command whose result is not used. -/
def thenGo (x : Exchange) (p : Phase) (_ : Dout) (s : State) : Result := .next (s.goTo x p)

/-- The continuation of READ_BUF. -/
def thenSend (x : Exchange) (d : Dout) (s : State) : Result :=
  match d with
  | .bytes b => .next (s.goTo x (.send b))
  | .nothing | .b2 _ | .b3 _ | .b8 _ | .b32 _ | .otime _ | .dur _ => .fault .wrongResultKind

/-- The continuation of GET_ORG_TS. -/
def thenCopy (x : Exchange) (d : Dout) (s : State) : Result :=
  match d with
  | .otime o => .next (s.goTo x (.copyOrigin o))
  | .nothing | .b2 _ | .b3 _ | .b8 _ | .b32 _ | .bytes _ | .dur _ => .fault .wrongResultKind

/-- The continuation of GET_OFFSET. -/
def thenReturnOffset (x : Exchange) (d : Dout) (s : State) : Result :=
  match d with
  | .dur v => .next (endOk x (.duration v) s)
  | .nothing | .b2 _ | .b3 _ | .b8 _ | .b32 _ | .bytes _ | .otime _ => .fault .wrongResultKind

/-- The continuation of the last command of query: return RSP (R194), or go on to GET_OFFSET (R196). -/
def thenReturnReply (x : Exchange) (_ : Dout) (s : State) : Result :=
  if x.wantOffset then .next (s.goTo x .readOffset) else .next (endOk x (.packet x.rsp) s)

/-- CH.send(bytes) (R194, R212): X_TRANSPORT where sending fails. -/
def sendDatagram (x : Exchange) (b : List Byte) (s : State) : State :=
  match x.channel with
  | .sendFails => endError x HostErr.transport.code s
  | .noReply | .receiveFails | .reply _ =>
    let y := s.client x.client
    (s.putClient x.client { y with sent := y.sent ++ [⟨y.remote, b⟩] }).goTo x .receive

/-- CH.receive(within TIMEOUT) (R194, R212): X_TRANSPORT where no reply is received in time. -/
def receiveDatagram (x : Exchange) (s : State) : State :=
  match x.channel with
  | .reply r => s.goTo x (.loadReply r)
  | .sendFails | .noReply | .receiveFails => endError x HostErr.transport.code s

/-- One line of the pseudocode of R194 to R196. -/
def advance (x : Exchange) (s : State) : Result :=
  match x.phase with
  | .initRequest => call x x.req ⟨0x3000, .nothing⟩ (thenGo x .stampRequest) s
  | .stampRequest => call x x.req ⟨0x1300, .otime true x.nowRequest⟩ (thenGo x .readRequest) s
  | .readRequest => call x x.req ⟨0x3200, .nothing⟩ (thenSend x) s
  | .send b => .next (sendDatagram x b s)
  | .receive => .next (receiveDatagram x s)
  | .loadReply r => call x x.rsp ⟨0x3100, .bytes r⟩ (thenGo x .readOrigin) s
  | .readOrigin => call x x.req ⟨0x1200, .nothing⟩ (thenCopy x) s
  | .copyOrigin o => call x x.rsp ⟨0x1300, Din.ofTime o⟩ (thenGo x .stampReply) s
  | .stampReply => call x x.rsp ⟨0x1900, .otime true x.nowReceipt⟩ (thenReturnReply x) s
  | .readOffset => call x x.rsp ⟨0x2100, .nothing⟩ (thenReturnOffset x) s

/-- One operation of the host, taken from `pending`. -/
def perform (op : HostOp) (s : State) : Result :=
  match op with
  | .command k c => issue k c s
  | .resetCodec k => .next (s.putCodec k Codec.reset)
  | .newClient c remote => .next (createClient c remote s)
  | .getTimeout c => .next (getTimeout c s)
  | .setTimeout c d => .next (setTimeout c d s)
  | .query c req rsp ch now =>
    .next (beginExchange ⟨c, req, rsp, ch, 0, now, false, .readRequest⟩ s)
  | .queryDefault c req rsp ch now now' =>
    .next (beginExchange ⟨c, req, rsp, ch, now, now', false, .initRequest⟩ s)
  | .getCorrectionOffset c req rsp ch now now' =>
    .next (beginExchange ⟨c, req, rsp, ch, now, now', true, .initRequest⟩ s)
  | .release c => .next (releaseClient c s)

/-- What the machine does next: the line of an exchange in progress; else the next host operation;
else, with nothing issued, nothing (R224). -/
def stepOnce (s : State) : Result :=
  match s.run with
  | some x => advance x s
  | none =>
    match s.pending with
    | [] => .next s
    | op :: rest => perform op { s with pending := rest }

/-- A command put where the next step takes it: no exchange in progress, and it stands first (log 7,
log 8). -/
def State.issueNext (s : State) (c : Command) : State :=
  { s with run := none, pending := .command s.sel c :: s.pending }

end Sys2Proof.Machine
end

