-- ==== Sys2Proof/Machine/Step.lean ====
section
/-! DEFINITION. One step of the machine, and how a program's next command is put where the step
takes it. The block fetches nothing (R21): the host issues commands, which stand in `pending`. -/

namespace Sys2Proof.Machine

/-- One step. -/
def step (s : State) : Host.Outcome State Fault Refusal := stepOnce s

/-- The state with the opcode-table word `w` of `nbits` bits, and a data operand of zeros (log 8),
issued as the next command, to the selected instance. -/
def State.withFetchWord (s : State) (nbits w : Nat) : State :=
  s.issueNext (tableCommand (BitVec.ofNat cmdWidth (w % 2 ^ nbits)))

end Sys2Proof.Machine
end

