-- ==== Sys2Proof/Machine/Assembler.lean ====
section
/-! DEFINITION. The assembler's lines as syntax (R69), the pseudo-instruction REQUEST_DEFAULT (R70)
and the calendar notation `cal(...)` of R12 (PRESUMED there: proleptic Gregorian, no leap seconds;
log 21). A line here is its mnemonic and operands; AssemblerText.lean reads it from characters. -/

namespace Sys2Proof.Machine

/-- An instant of `cal(YYYY-MM-DDThh:mm:ss.fffZ)` (R12). -/
structure Instant where
  year : Nat
  month : Nat
  day : Nat
  hour : Nat
  minute : Nat
  second : Nat
  milli : Nat
deriving DecidableEq, Repr

/-- A leap year of the proleptic Gregorian calendar. -/
def leapYear (y : Nat) : Bool := (y % 4 == 0 && y % 100 != 0) || y % 400 == 0

/-- The days of a month. -/
def daysInMonth (y m : Nat) : Nat :=
  if m = 2 then (if leapYear y then 29 else 28)
  else if m = 4 ∨ m = 6 ∨ m = 9 ∨ m = 11 then 30 else 31

/-- The days of the first `m` months of a year. -/
def daysOfMonths (y : Nat) : Nat → Nat
  | 0 => 0
  | m + 1 => daysOfMonths y m + daysInMonth y (m + 1)

/-- The days from year 0's first day to year `y`'s. -/
def daysBeforeYear (y : Nat) : Nat := 365 * y + (y + 3) / 4 - (y + 99) / 100 + (y + 399) / 400

/-- The days from 1900-01-01 to a date. -/
def daysSince1900 (y m d : Nat) : Int :=
  (daysBeforeYear y + daysOfMonths y (m - 1) + (d - 1) : Nat) - (daysBeforeYear 1900 : Nat)

/-- Whether an instant names a date and a time of day. The hour is 0 to 23: ISO 8601's 24:00:00 for the
end of a day is refused, which R12 and R69 leave open (DESIGN CHOICE, log 25). -/
def Instant.wf (i : Instant) : Bool :=
  decide (1 ≤ i.month) && decide (i.month ≤ 12) && decide (1 ≤ i.day)
    && decide (i.day ≤ daysInMonth i.year i.month) && decide (i.hour < 24)
    && decide (i.minute < 60) && decide (i.second < 60) && decide (i.milli < 1000)

/-- The milliseconds from the 1900 epoch to an instant (R12). -/
def Instant.millis (i : Instant) : Int :=
  ((daysSince1900 i.year i.month i.day * 86400 + (i.hour * 3600 + i.minute * 60 + i.second : Nat))
    * 1000) + i.milli

/-- `n` milliseconds in ticks, n·TPS/1000; none where that is no whole number of ticks (log 25). -/
def millisToTicks (g : Config) (n : Int) : Option Int :=
  if (n * g.tps) % 1000 = 0 then some (n * g.tps / 1000) else none

/-- `<ticks>`: a decimal integer, perhaps with the suffix `ms` (R69). -/
inductive TicksLit where
  | ticks (n : Int)
  | ms (n : Int)
deriving DecidableEq, Repr

/-- The value of `<ticks>` (R69). -/
def TicksLit.value (g : Config) : TicksLit → Option Int
  | .ticks n => some n
  | .ms n => millisToTicks g n

/-- `<ts>` (R69): absent, a tick count, or an instant with an offset (`cal(i) + k` or
`cal(i) - k`). -/
inductive TsLit where
  | absent
  | ticks (t : TicksLit)
  | cal (i : Instant)
  | calPlus (i : Instant) (t : TicksLit)
  | calMinus (i : Instant) (t : TicksLit)
deriving DecidableEq, Repr

/-- The ticks of an instant. -/
def Instant.ticks (g : Config) (i : Instant) : Option Int :=
  if i.wf then millisToTicks g i.millis else none

/-- An integer as a Time operand; none outside Int64. -/
def toTime (n : Int) : Option Time := if fitsInt64 n then some (BitVec.ofInt 64 n) else none

/-- The operand a `<ts>` stands for; none where it does not assemble. -/
def TsLit.operand (g : Config) : TsLit → Option (Option Time)
  | .absent => some none
  | .ticks t => ((t.value g).bind toTime).map some
  | .cal i => ((i.ticks g).bind toTime).map some
  | .calPlus i t =>
    ((i.ticks g).bind fun a => (t.value g).bind fun b => toTime (a + b)).map some
  | .calMinus i t =>
    ((i.ticks g).bind fun a => (t.value g).bind fun b => toTime (a - b)).map some

/-- The operands of a line. -/
inductive LineOperands where
  | nothing
  | imm (n : Int)
  | ts (t : TsLit)
  | hexBytes (b : List Byte)
deriving DecidableEq, Repr

/-- One line of the assembler (R69): a command, or REQUEST_DEFAULT (R70). -/
inductive Line where
  | command (op : Opcode) (operands : LineOperands)
  | requestDefault (t : TsLit)
deriving DecidableEq, Repr

/-- An immediate of `w` bits; none outside its range (R69). -/
def immediate (w : Nat) (n : Int) : Option (BitVec 3) :=
  if 0 ≤ n ∧ n < 2 ^ w then some (BitVec.ofInt 3 n) else none

/-- The width of a command's immediate (R64), 0 for none. -/
def Opcode.immWidth : Opcode → Nat
  | .setLi => 2
  | .setVn | .setMode => 3
  | .getLi | .getVn | .getMode => 0
  | .getStratum | .getPoll | .getPrecision => 0
  | .getRootDelay | .getRootDispersion | .getReferenceId => 0
  | .getRefTs | .setRefTs | .getOrgTs | .setOrgTs | .getRcvTs | .setRcvTs => 0
  | .getXmtTs | .setXmtTs | .getDstTs | .setDstTs => 0
  | .getRtt | .getOffset | .initDefault | .load | .readBuf => 0

/-- One command line assembled (R69); none where it does not assemble. -/
def assembleCommand (g : Config) (op : Opcode) (o : LineOperands) : Option Instr :=
  match o with
  | .nothing => if op.usesImm then none else op.build 0 .nothing
  | .imm n => if op.usesImm then (immediate (Opcode.immWidth op) n).bind (op.build · .nothing) else none
  | .ts t => (t.operand g).bind fun v => op.build 0 (Din.ofTime v)
  | .hexBytes b => op.build 0 (.bytes b)

/-- REQUEST_DEFAULT o (R70): the two commands it expands to. -/
def requestDefault (o : Option Time) : List Instr := [.initDefault, .setOrgTs o]

/-- A line assembled to its commands on the ports (R69, R70). -/
def assemble (g : Config) : Line → Option (List Command)
  | .command op o => (assembleCommand g op o).map fun i => [encode i]
  | .requestDefault t => (t.operand g).map fun o => (requestDefault o).map encode

/-- A program's commands as host operations on one instance. -/
def commandsTo (k : Nat) (cs : List Command) : List HostOp := cs.map (HostOp.command k)

end Sys2Proof.Machine
end

