-- ==== Sys2Proof/Machine/AssemblerText.lean ====
section
/-! DEFINITION. The assembler's text (R69): reading a line of characters as the line it writes, and
assembling a program, one command a line. A run of spaces separates as one space does, and an empty
line writes nothing (DESIGN CHOICE, log 25). -/

namespace Sys2Proof.Machine

/-- A line cut at every occurrence of a character. -/
def cutAt (sep : Char) : List Char → List (List Char)
  | [] => [[]]
  | c :: cs =>
    match cutAt sep cs with
    | [] => [[c]]
    | w :: ws => if c = sep then [] :: w :: ws else (c :: w) :: ws

/-- The words of a line. The space character alone separates them, a tab does not. Spaces before the mnemonic and after the last operand are ignored, and a line
of spaces only has no words, as an empty one has none: R69 is silent (DESIGN CHOICE, log 25). -/
def wordsOf (l : List Char) : List (List Char) := (cutAt ' ' l).filter (· != [])

/-- A decimal digit. -/
def digit? (c : Char) : Option Nat := if '0' ≤ c ∧ c ≤ '9' then some (c.toNat - 48) else none

/-- A hexadecimal digit, of either case. -/
def hexDigit? (c : Char) : Option Nat :=
  if '0' ≤ c ∧ c ≤ '9' then some (c.toNat - 48)
  else if 'A' ≤ c ∧ c ≤ 'F' then some (c.toNat - 55)
  else if 'a' ≤ c ∧ c ≤ 'f' then some (c.toNat - 87)
  else none

/-- `<hex byte>` (R69): two hexadecimal digits. -/
def hexByte? : List Char → Option Byte
  | [a, b] => do pure (BitVec.ofNat 8 (16 * (← hexDigit? a) + (← hexDigit? b)))
  | _ => none

/-- The number that decimal digits write. -/
def ofDigits (ds : List Nat) : Nat := ds.foldl (fun n d => 10 * n + d) 0

/-- Every element read, or none. -/
def readAll {α β : Type} (f : α → Option β) : List α → Option (List β)
  | [] => some []
  | a :: as =>
    match f a, readAll f as with
    | some b, some bs => some (b :: bs)
    | _, _ => none

/-- A decimal number of at least one digit. -/
def natural? (w : List Char) : Option Nat := if w = [] then none else (readAll digit? w).map ofDigits

/-- A decimal integer. Leading zeros and a minus on zero are read, and a leading plus is not, which R69
leaves open (DESIGN CHOICE, log 25). -/
def integer? : List Char → Option Int
  | '-' :: w => (natural? w).map fun n => -(n : Int)
  | w => (natural? w).map fun n => (n : Int)

/-- `<ticks>` (R69): a decimal integer, perhaps with the suffix `ms`, which stands against its last digit
(DESIGN CHOICE, log 25). -/
def ticksLit? (w : List Char) : Option TicksLit :=
  match w.reverse with
  | 's' :: 'm' :: r => (integer? r.reverse).map .ms
  | _ => (integer? w).map .ticks

/-- The digits of a text that follows a pattern: `#` stands for one digit, any other character for
itself. -/
def follow : List Char → List Char → Option (List Nat)
  | [], [] => some []
  | p :: ps, c :: cs =>
    if p = '#' then
      match digit? c, follow ps cs with
      | some d, some ds => some (d :: ds)
      | _, _ => none
    else if p = c then follow ps cs
    else none
  | _, _ => none

/-- An instant from its digits: year, month, day, hour, minute, second, and milliseconds if given. -/
def instantOf (ds : List Nat) : Instant :=
  let part := fun (i n : Nat) => ofDigits ((ds.drop i).take n)
  ⟨part 0 4, part 4 2, part 6 2, part 8 2, part 10 2, part 12 2, part 14 3⟩

/-- `YYYY-MM-DDThh:mm:ssZ`, with or without milliseconds (R12). -/
def instant? (w : List Char) : Option Instant :=
  match follow "####-##-##T##:##:##.###Z".toList w with
  | some ds => some (instantOf ds)
  | none => (follow "####-##-##T##:##:##Z".toList w).map instantOf

/-- `cal(<instant>)`, with what stands after its closing bracket (R69). -/
def calLit? : List Char → Option (Instant × List Char)
  | 'c' :: 'a' :: 'l' :: '(' :: w =>
    match cutAt ')' w with
    | [i, rest] => (instant? i).map fun t => (t, rest)
    | _ => none
  | _ => none

/-- An instant with an offset, the sign and the offset given. The offset is any `<ticks>`, a negative one
too (DESIGN CHOICE, log 25). -/
def offsetLit (t : Instant) (sign : List Char) (k : List Char) : Option TsLit :=
  if sign = ['+'] then (ticksLit? k).map (.calPlus t)
  else if sign = ['-'] then (ticksLit? k).map (.calMinus t)
  else none

/-- `<ts>` (R69), from the words of the operand. Around the `+` or `-` after `cal(...)` spaces stand on
both sides or on neither, which R69 leaves open (DESIGN CHOICE, log 25). -/
def tsLit? : List (List Char) → Option TsLit
  | [w] =>
    if w = "absent".toList then some .absent
    else
      match calLit? w with
      | some (t, []) => some (.cal t)
      | some (t, sign :: k) => offsetLit t [sign] k
      | none => (ticksLit? w).map .ticks
  | [w, sign, k] =>
    match calLit? w with
    | some (t, []) => offsetLit t sign k
    | _ => none
  | _ => none

/-- The mnemonics of the accessors of byte 0 and of the scalars (R65). -/
def mnemonicsScalar : List (String × Opcode) :=
  [("GET_LI", .getLi), ("SET_LI", .setLi), ("GET_VN", .getVn), ("SET_VN", .setVn),
   ("GET_MODE", .getMode), ("SET_MODE", .setMode), ("GET_STRATUM", .getStratum),
   ("GET_POLL", .getPoll), ("GET_PRECISION", .getPrecision), ("GET_ROOT_DELAY", .getRootDelay),
   ("GET_ROOT_DISPERSION", .getRootDispersion), ("GET_REFERENCE_ID", .getReferenceId)]

/-- The mnemonics of the timestamps, the metrics and the packet commands (R65). -/
def mnemonicsOther : List (String × Opcode) :=
  [("GET_REF_TS", .getRefTs), ("SET_REF_TS", .setRefTs), ("GET_ORG_TS", .getOrgTs),
   ("SET_ORG_TS", .setOrgTs), ("GET_RCV_TS", .getRcvTs), ("SET_RCV_TS", .setRcvTs),
   ("GET_XMT_TS", .getXmtTs), ("SET_XMT_TS", .setXmtTs), ("GET_DST_TS", .getDstTs),
   ("SET_DST_TS", .setDstTs), ("GET_RTT", .getRtt), ("GET_OFFSET", .getOffset),
   ("INIT_DEFAULT", .initDefault), ("LOAD", .load), ("READ_BUF", .readBuf)]

/-- The command a mnemonic names (R65). -/
def mnemonic? (w : List Char) : Option Opcode :=
  ((mnemonicsScalar ++ mnemonicsOther).find? fun r => r.1.toList == w).map (·.2)

/-- The operands of a command, of the form its line takes (R69). -/
def operands? (op : Opcode) (ws : List (List Char)) : Option LineOperands :=
  match op.dinKind with
  | .otime => (tsLit? ws).map .ts
  | .bytes => (readAll hexByte? ws).map .hexBytes
  | .nothing =>
    match op.usesImm, ws with
    | false, [] => some .nothing
    | true, [w] => (integer? w).map .imm
    | _, _ => none

/-- A line of text read (R69, R70); none where it is no line of the assembler. -/
def readLine (l : List Char) : Option Line :=
  match wordsOf l with
  | [] => none
  | w :: ws =>
    if w = "REQUEST_DEFAULT".toList then (tsLit? ws).map .requestDefault
    else (mnemonic? w).bind fun op => (operands? op ws).map (.command op)

/-- A line of text assembled (R69): none where it does not assemble. -/
def assembleText (g : Config) (l : List Char) : Option (List Command) :=
  if wordsOf l = [] then some [] else (readLine l).bind (assemble g)

/-- A program's text assembled, one command a line (R69). The newline character alone ends a line, and a
carriage return is part of a word like any other character, which R69 leaves open (DESIGN CHOICE,
log 25). -/
def assembleProgram (g : Config) (text : List Char) : Option (List Command) :=
  (readAll (assembleText g) (cutAt '\n' text)).map List.flatten

end Sys2Proof.Machine
end

