-- ==== Sys2Proof/Safety.lean ====
section
/-! DEFINITION. What claims about this machine are stated in: when a command can act on a packet, the
invariant of a sound machine, what a command may store to, and which states the host cannot tell
apart. -/

namespace Sys2Proof.Machine

/-- The instance holds a packet that every fixed offset lies inside (R22, R44): the condition under
which a command other than INIT_DEFAULT and LOAD performs its rule (R71). -/
def Codec.Ready (x : Codec) : Prop := x.pv = true ∧ bufMin ≤ x.len

/-- Two instances hold the same state of R22 (the output ports aside). -/
def Codec.SameState (x y : Codec) : Prop :=
  y.pv = x.pv ∧ y.len = x.len ∧ y.buf = x.buf ∧ y.dv = x.dv ∧ y.dt = x.dt ∧ y.errlog = x.errlog

/-- Two instances hold the same packet and destination (PV, LEN, BUF, DV, DT): what R200 says an
error keeps. -/
def Codec.SamePacket (x y : Codec) : Prop :=
  y.pv = x.pv ∧ y.len = x.len ∧ y.buf = x.buf ∧ y.dv = x.dv ∧ y.dt = x.dt

/-- The eight bytes of BUF from an offset up, the first most significant (R40, R41). -/
def Codec.eightBytes (x : Codec) (off : Nat) : BitVec 64 :=
  x.buf.read off ++ x.buf.read (off + 1) ++ x.buf.read (off + 2) ++ x.buf.read (off + 3)
    ++ x.buf.read (off + 4) ++ x.buf.read (off + 5) ++ x.buf.read (off + 6) ++ x.buf.read (off + 7)

/-- Int64 (R10). -/
def InInt64 (n : Int) : Prop := -(2 ^ 63) ≤ n ∧ n ≤ 2 ^ 63 - 1

/-- A command answers a next state that ends OK with a given result. -/
def Answers (i : Instr) (s : State) (d : Dout) : Prop :=
  ∃ t, exec i s = .next t ∧ t.cur.status = 0 ∧ t.cur.dout = some d

/-- Every instance but the selected one is the same. -/
def State.SameOthers (s t : State) : Prop := ∀ k, k ≠ s.sel → t.codec k = s.codec k

/-- Everything of the machine but its instances is the same. -/
def State.SameOutside (s t : State) : Prop :=
  t.cfg = s.cfg ∧ t.clients = s.clients ∧ t.run = s.run ∧ t.sel = s.sel ∧ t.pending = s.pending

/-- A sound instance: the canonical form of BUF, no byte listed past LEN, the bounds of LEN while
PV = 1 (R22), only codec codes in ERRLOG and STATUS (R31, R203), and DOUT present only when
STATUS = 0 (R60). -/
structure Codec.Sound (g : Config) (x : Codec) : Prop where
  memory : x.buf.wf = true
  inside : ∀ c ∈ x.buf, c.1 < x.len
  length : x.pv = true → bufMin ≤ x.len ∧ x.len ≤ g.bufMax
  errlog : x.errlog.toNat ≤ 7
  status : x.status.toNat ≤ 7
  result : x.dout.isSome = true → x.status = 0

/-- A sound Client: a timeout of at least 1 ms (R193), a status of R203, and a value only with
status 0. -/
structure Client.Sound (g : Config) (y : Client) : Prop where
  timeout : (g.tps : Int) ≤ y.timeout.toInt * 1000
  status : y.status.toNat ≤ 10
  result : y.value.isSome = true → y.status = 0

/-- A sound machine: lawful parameters (R8), canonical lists, sound instances and Clients. -/
structure State.Sound (s : State) : Prop where
  params : s.cfg.lawful
  codecsForm : Sparse.wf Codec.reset s.codecs = true
  clientsForm : Sparse.wf (Client.fresh s.cfg Endpoint.unset) s.clients = true
  codecs : ∀ k, (s.codec k).Sound s.cfg
  clients : ∀ c, (s.client c).Sound s.cfg

/-- A byte offset inside a wire timestamp's field (R148). -/
def WireTs.covers (f : WireTs) (a : Nat) : Bool := decide (f.offset ≤ a) && decide (a < f.offset + 8)

end Sys2Proof.Machine

namespace Sys2Proof
open Sys2Proof.Machine

/-- A data operand with the don't-care tick count of an absent OTIME operand cleared (R61). -/
def Din.normal : Din → Din
  | .nothing => .nothing
  | .otime p t => Din.ofTime (optTime p t)
  | .bytes b => .bytes b

/-- The offsets of BUF a command may store to (R45): byte 0 for a byte-0 setter, the field's eight
bytes for a timestamp setter, all of BUF for a constructor, none for any other command. -/
def Instr.stores : Instr → Nat → Bool
  | .getLi, _ => false
  | .setLi _, a => a == 0
  | .getVn, _ => false
  | .setVn _, a => a == 0
  | .getMode, _ => false
  | .setMode _, a => a == 0
  | .getStratum, _ => false
  | .getPoll, _ => false
  | .getPrecision, _ => false
  | .getRootDelay, _ => false
  | .getRootDispersion, _ => false
  | .getReferenceId, _ => false
  | .getRefTs, _ => false
  | .setRefTs _, a => WireTs.covers .ref a
  | .getOrgTs, _ => false
  | .setOrgTs _, a => WireTs.covers .org a
  | .getRcvTs, _ => false
  | .setRcvTs _, a => WireTs.covers .rcv a
  | .getXmtTs, _ => false
  | .setXmtTs _, a => WireTs.covers .xmt a
  | .getDstTs, _ => false
  | .setDstTs _, _ => false
  | .getRtt, _ => false
  | .getOffset, _ => false
  | .initDefault, _ => true
  | .load _, _ => true
  | .readBuf, _ => false

/-- The read commands (R46): every GET, and READ_BUF. -/
def Instr.reads : Instr → Bool
  | .getLi => true
  | .setLi _ => false
  | .getVn => true
  | .setVn _ => false
  | .getMode => true
  | .setMode _ => false
  | .getStratum => true
  | .getPoll => true
  | .getPrecision => true
  | .getRootDelay => true
  | .getRootDispersion => true
  | .getReferenceId => true
  | .getRefTs => true
  | .setRefTs _ => false
  | .getOrgTs => true
  | .setOrgTs _ => false
  | .getRcvTs => true
  | .setRcvTs _ => false
  | .getXmtTs => true
  | .setXmtTs _ => false
  | .getDstTs => true
  | .setDstTs _ => false
  | .getRtt => true
  | .getOffset => true
  | .initDefault => false
  | .load _ => false
  | .readBuf => true

/-- The two constructors, the commands accepted while PV = 0 (R71). -/
def Instr.constructs : Instr → Bool
  | .getLi => false
  | .setLi _ => false
  | .getVn => false
  | .setVn _ => false
  | .getMode => false
  | .setMode _ => false
  | .getStratum => false
  | .getPoll => false
  | .getPrecision => false
  | .getRootDelay => false
  | .getRootDispersion => false
  | .getReferenceId => false
  | .getRefTs => false
  | .setRefTs _ => false
  | .getOrgTs => false
  | .setOrgTs _ => false
  | .getRcvTs => false
  | .setRcvTs _ => false
  | .getXmtTs => false
  | .setXmtTs _ => false
  | .getDstTs => false
  | .setDstTs _ => false
  | .getRtt => false
  | .getOffset => false
  | .initDefault => true
  | .load _ => true
  | .readBuf => false

/-- Whether a command writes DV (R45): SET_DST_TS and the constructors. -/
def Instr.writesDestination : Instr → Bool
  | .getLi => false
  | .setLi _ => false
  | .getVn => false
  | .setVn _ => false
  | .getMode => false
  | .setMode _ => false
  | .getStratum => false
  | .getPoll => false
  | .getPrecision => false
  | .getRootDelay => false
  | .getRootDispersion => false
  | .getReferenceId => false
  | .getRefTs => false
  | .setRefTs _ => false
  | .getOrgTs => false
  | .setOrgTs _ => false
  | .getRcvTs => false
  | .setRcvTs _ => false
  | .getXmtTs => false
  | .setXmtTs _ => false
  | .getDstTs => false
  | .setDstTs _ => true
  | .getRtt => false
  | .getOffset => false
  | .initDefault => true
  | .load _ => true
  | .readBuf => false

/-- The errors a command may raise once it is decoded (R203). -/
def Instr.errors : Instr → List Err
  | .getLi => [.noPacket]
  | .setLi _ => [.noPacket]
  | .getVn => [.noPacket]
  | .setVn _ => [.noPacket]
  | .getMode => [.noPacket]
  | .setMode _ => [.noPacket, .modeDomain]
  | .getStratum => [.noPacket]
  | .getPoll => [.noPacket]
  | .getPrecision => [.noPacket]
  | .getRootDelay => [.noPacket]
  | .getRootDispersion => [.noPacket]
  | .getReferenceId => [.noPacket]
  | .getRefTs => [.noPacket]
  | .setRefTs _ => [.noPacket, .tsRange]
  | .getOrgTs => [.noPacket]
  | .setOrgTs _ => [.noPacket, .tsRange]
  | .getRcvTs => [.noPacket]
  | .setRcvTs _ => [.noPacket, .tsRange]
  | .getXmtTs => [.noPacket]
  | .setXmtTs _ => [.noPacket, .tsRange]
  | .getDstTs => [.noPacket]
  | .setDstTs _ => [.noPacket]
  | .getRtt => [.noPacket, .state, .overflow]
  | .getOffset => [.noPacket, .state, .overflow]
  | .initDefault => []
  | .load _ => [.size]
  | .readBuf => [.noPacket]

end Sys2Proof

namespace Sys2Proof.Machine

/-- Two instances that differ only in what the spec calls unspecified and unobservable (R33, I1, I2):
LEN and BUF while PV = 0, and DT while DV = 0. -/
def Codec.Alike (x y : Codec) : Prop :=
  y.pv = x.pv ∧ y.dv = x.dv ∧ y.errlog = x.errlog ∧ y.status = x.status ∧ y.dout = x.dout
    ∧ (x.pv = true → y.len = x.len ∧ y.buf = x.buf) ∧ (x.dv = true → y.dt = x.dt)

end Sys2Proof.Machine
end

