-- ==== Sys2Proof/Certificates/Slice0/Obligations.lean ====
section
/-! DEFINITION. The statements for the provers, each one a rule of the spec or a property of the whole
machine. `s.cur` is the instance a command is issued to; `Ready` is "PV = 1 and LEN >= 48". -/

open Sys2Proof Sys2Proof.Machine

/-- PV, ERRLOG and DV are 0 in every instance of the machine right after reset, whatever the parameters
(R33). That the host's operation resetCodec puts an instance in that state and touches no other is
deduced from R230 (log 30); the numbers of instances and the line of issued operations are the model's
own (log 13, log 7). -/
def Obligations.ResetClearsPvErrlogAndDv : Prop :=
  (∀ (g : Config) (k : Nat), ((State.resetWith g).codec k).pv = false ∧
    ((State.resetWith g).codec k).errlog = 0 ∧ ((State.resetWith g).codec k).dv = false) ∧
  (∀ (s : State) (k : Nat) (rest : List HostOp),
    s.run = none → s.pending = .resetCodec k :: rest →
    ∃ t, step s = .next t ∧ (t.codec k).pv = false ∧ (t.codec k).errlog = 0 ∧
      (t.codec k).dv = false ∧ ∀ j, j ≠ k → t.codec j = s.codec j)

/-- A step takes the first command the host has issued: where it decodes to an instruction, the step
is `exec` of that instruction on the instance it is issued to; where it does not, the step raises
E_ILLEGAL there (R66, R71). -/
def Obligations.StepRunsDecodedCommand : Prop :=
  ∀ (s : State) (k : Nat) (c : Command) (rest : List HostOp),
    s.run = none → s.pending = .command k c :: rest →
    (∀ i, decode c = .ok i → step s = exec i (({ s with pending := rest } : State).select k)) ∧
    (∀ e, decode c = .error e →
      step s = .next ((({ s with pending := rest } : State).select k).setCur
        ((s.codec k).fail .illegal)))

/-- The last lines of an exchange. The line that stamps RSP's destination with the clock's reading ends
query (R194), which returns RSP, and goes on to GET_OFFSET in getCorrectionOffset (R196), where what
GET_OFFSET answers on RSP is what the operation returns. One line a step is the model's choice
(log 27). -/
def Obligations.CorrectionOffsetIsReturned : Prop :=
  (∀ (s : State) (x : Exchange), s.run = some x → x.phase = .stampReply → (s.codec x.rsp).Ready →
    ∃ t, step s = .next t ∧ (t.codec x.rsp).dv = true ∧ (t.codec x.rsp).dt = x.nowReceipt ∧
      (∀ a, (t.codec x.rsp).buf.read a = (s.codec x.rsp).buf.read a) ∧
      (x.wantOffset = true → t.run = some { x with phase := .readOffset } ∧ t.clients = s.clients) ∧
      (x.wantOffset = false → t.run = none ∧ (t.client x.client).status = 0 ∧
        (t.client x.client).value = some (.packet x.rsp))) ∧
  ∀ (s : State) (x : Exchange), s.run = some x → x.phase = .readOffset →
    (∀ d, Answers .getOffset (s.select x.rsp) (.dur d) →
      ∃ t, step s = .next t ∧ t.run = none ∧ (t.client x.client).status = 0 ∧
        (t.client x.client).value = some (.duration d)) ∧
    (∀ u, exec .getOffset (s.select x.rsp) = .next u → u.cur.status ≠ 0 →
      ∃ t, step s = .next t ∧ t.run = none ∧ (t.client x.client).status = u.cur.status ∧
        (t.client x.client).value = none)

/-- A table word put where the machine takes its next command is run by the very next step. -/
def Obligations.TableWordIsRunNext : Prop :=
  ∀ (s : State) (w : Nat) (i : Instr), decodeTableWord 16 w = some i →
    step (s.withFetchWord 16 w) = exec i { s with run := none }

/-- R224: with nothing in progress and nothing issued, a step changes nothing. -/
def Obligations.IdleMachineKeepsState : Prop :=
  ∀ s : State, s.run = none → s.pending = [] → step s = .next s

/-- Every instruction's encoding decodes to that instruction, with every operand. -/
def Obligations.DecodeOfEncode : Prop := ∀ i : Instr, decode (encode i) = .ok i

/-- Each legal command has one meaning: it is the encoding of what it decodes to, but for the tick
count of an absent OTIME operand, which is ignored. -/
def Obligations.DecodedCommandIsItsEncoding : Prop :=
  ∀ (c : Command) (i : Instr), decode c = .ok i → encode i = ⟨c.word, c.din.normal⟩

/-- A command decodes exactly when a row of the opcode map fits it (R65, R66). -/
def Obligations.LegalExactlyByTheMap : Prop :=
  ∀ c : Command, (∃ i, decode c = .ok i) ↔ c.wf = true

/-- No command word fits two rows of the opcode map. -/
def Obligations.MapRowsAreDisjoint : Prop :=
  opRows.Pairwise fun r r' => ∀ w, ¬ (r.fits w = true ∧ r'.fits w = true)

/-- Words written out from the encodings of the spec decode to their commands. -/
def Obligations.SpecWordsDecode : Prop :=
  decode ⟨0b0000000100000000, .nothing⟩ = .ok .getLi ∧
  decode ⟨0b0000001000000011, .nothing⟩ = .ok (.setLi 3) ∧
  decode ⟨0b0000010000000100, .nothing⟩ = .ok (.setVn 4) ∧
  decode ⟨0b0000110100000000, .nothing⟩ = .ok .getReferenceId ∧
  decode ⟨0b0001001100000000, .otime true 5⟩ = .ok (.setOrgTs (some 5)) ∧
  decode ⟨0b0010000100000000, .nothing⟩ = .ok .getOffset ∧
  decode ⟨0b0011000100000000, .bytes [1, 2]⟩ = .ok (.load [1, 2]) ∧
  decode ⟨0b0000001000000100, .nothing⟩ = .error .leapImmediate ∧
  decode ⟨0b0000000100001000, .nothing⟩ = .error .reservedBits

/-- The six laws of EXTRACT and INSERT. -/
def Obligations.SubFieldLaws : Prop :=
  (∀ (b : Byte) (f : SubField) (v : BitVec f.width), extract (insert b f v) f = v) ∧
  (∀ (b : Byte) (f g : SubField) (v : BitVec f.width),
    f ≠ g → extract (insert b f v) g = extract b g) ∧
  (∀ (b : Byte) (f : SubField), insert b f (extract b f) = b) ∧
  (∀ (b : Byte) (f : SubField) (v w : BitVec f.width),
    insert (insert b f v) f w = insert b f w) ∧
  (∀ (b : Byte) (f g : SubField) (v : BitVec f.width) (w : BitVec g.width),
    f ≠ g → insert (insert b f v) g w = insert (insert b g w) f v) ∧
  (∀ b : Byte, b = (extract b .li).setWidth 8 <<< 6 ||| (extract b .vn).setWidth 8 <<< 3
    ||| (extract b .mode).setWidth 8)

/-- R103, R105, R107: the byte-0 getters return bits 7..6, 5..3 and 2..0 of BUF[0], whatever they hold,
and change nothing but the ports. -/
def Obligations.ByteZeroGettersReadTheirBits : Prop :=
  encode .getLi = ⟨0x0100, .nothing⟩ ∧ encode .getVn = ⟨0x0300, .nothing⟩ ∧
  encode .getMode = ⟨0x0500, .nothing⟩ ∧
  ∀ s : State, s.cur.Ready →
    exec .getLi s = .next (s.setCur (s.cur.ok (.b2 ((s.cur.buf.read 0).extractLsb' 6 2)))) ∧
    exec .getVn s = .next (s.setCur (s.cur.ok (.b3 ((s.cur.buf.read 0).extractLsb' 3 3)))) ∧
    exec .getMode s = .next (s.setCur (s.cur.ok (.b3 ((s.cur.buf.read 0).extractLsb' 0 3))))

/-- R104, R106: SET_LI and SET_VN put their value in bits 7..6 and 5..3 of BUF[0] and keep the other
bits; nothing else but the ports changes. -/
def Obligations.ByteZeroSettersInsertTheirBits : Prop :=
  (∀ v : BitVec 2, encode (.setLi v) = ⟨0b00000010000000#14 ++ v, .nothing⟩) ∧
  (∀ v : BitVec 3, encode (.setVn v) = ⟨0b0000010000000#13 ++ v, .nothing⟩) ∧
  ∀ s : State, s.cur.Ready →
    (∀ v : BitVec 2, exec (.setLi v) s = .next (s.setCur ((s.cur.withBuf (s.cur.buf.write 0
      (v ++ (s.cur.buf.read 0).extractLsb' 0 6))).ok .nothing))) ∧
    (∀ v : BitVec 3, exec (.setVn v) s = .next (s.setCur ((s.cur.withBuf (s.cur.buf.write 0
      ((s.cur.buf.read 0).extractLsb' 6 2 ++ v ++ (s.cur.buf.read 0).extractLsb' 0 3))).ok
      .nothing)))

/-- R108, R206: SET_MODE puts its value in bits 2..0 of BUF[0] and keeps the other bits; with
MODE_STRICT = 1, a value other than 3 and 4 raises E_MODE_DOMAIN instead. -/
def Obligations.SetModeStoresOrRaises : Prop :=
  (∀ v : BitVec 3, encode (.setMode v) = ⟨0b0000011000000#13 ++ v, .nothing⟩) ∧
  ∀ (s : State) (v : BitVec 3), s.cur.Ready →
    (s.cfg.modeStrict = false ∨ v = 3 ∨ v = 4 →
      exec (.setMode v) s = .next (s.setCur ((s.cur.withBuf (s.cur.buf.write 0
        ((s.cur.buf.read 0).extractLsb' 3 5 ++ v))).ok .nothing))) ∧
    (s.cfg.modeStrict = true ∧ v ≠ 3 ∧ v ≠ 4 →
      exec (.setMode v) s = .next (s.setCur (s.cur.fail .modeDomain)))

/-- R26: a byte-0 setter that succeeds changes only its own bits of BUF[0], no other byte and no other
state; a byte-0 getter that succeeds changes no state. -/
def Obligations.ByteZeroWritesPreserveTheRest : Prop :=
  ∀ (i : Instr) (s t : State), exec i s = .next t → t.cur.status = 0 →
    ((∃ v, i = .setLi v) →
      (t.cur.buf.read 0).extractLsb' 0 6 = (s.cur.buf.read 0).extractLsb' 0 6) ∧
    ((∃ v, i = .setVn v) →
      (t.cur.buf.read 0).extractLsb' 6 2 = (s.cur.buf.read 0).extractLsb' 6 2 ∧
      (t.cur.buf.read 0).extractLsb' 0 3 = (s.cur.buf.read 0).extractLsb' 0 3) ∧
    ((∃ v, i = .setMode v) →
      (t.cur.buf.read 0).extractLsb' 3 5 = (s.cur.buf.read 0).extractLsb' 3 5) ∧
    ((∃ v, i = .setLi v) ∨ (∃ v, i = .setVn v) ∨ (∃ v, i = .setMode v) →
      (∀ a, a ≠ 0 → t.cur.buf.read a = s.cur.buf.read a) ∧ t.cur.pv = s.cur.pv ∧
      t.cur.len = s.cur.len ∧ t.cur.dv = s.cur.dv ∧ t.cur.dt = s.cur.dt ∧
      t.cur.errlog = s.cur.errlog ∧ s.SameOthers t ∧ s.SameOutside t) ∧
    (i = .getLi ∨ i = .getVn ∨ i = .getMode →
      s.cur.SameState t.cur ∧ s.SameOthers t ∧ s.SameOutside t)

/-- The source's bit-field property: setting then getting a sub-field returns the value, and the other
two sub-fields read as before (for SET_MODE, where it is not refused). -/
def Obligations.SetThenGetReturnsTheValue : Prop :=
  ∀ s : State, s.cur.Ready →
    (∀ v, ∃ t, exec (.setLi v) s = .next t ∧ Answers .getLi t (.b2 v) ∧
      ∀ d, (Answers .getVn s d → Answers .getVn t d) ∧
        (Answers .getMode s d → Answers .getMode t d)) ∧
    (∀ v, ∃ t, exec (.setVn v) s = .next t ∧ Answers .getVn t (.b3 v) ∧
      ∀ d, (Answers .getLi s d → Answers .getLi t d) ∧
        (Answers .getMode s d → Answers .getMode t d)) ∧
    (∀ v, s.cfg.modeStrict = false ∨ v = 3 ∨ v = 4 →
      ∃ t, exec (.setMode v) s = .next t ∧ Answers .getMode t (.b3 v) ∧
      ∀ d, (Answers .getLi s d → Answers .getLi t d) ∧ (Answers .getVn s d → Answers .getVn t d))

/-- R120 to R125: the scalar commands return the raw byte or the big-endian 32-bit word at their
offset, with no transformation, and change nothing but the ports. -/
def Obligations.ScalarGettersReturnRawBytes : Prop :=
  encode .getStratum = ⟨0x0800, .nothing⟩ ∧ encode .getPoll = ⟨0x0900, .nothing⟩ ∧
  encode .getPrecision = ⟨0x0A00, .nothing⟩ ∧ encode .getRootDelay = ⟨0x0B00, .nothing⟩ ∧
  encode .getRootDispersion = ⟨0x0C00, .nothing⟩ ∧
  encode .getReferenceId = ⟨0x0D00, .nothing⟩ ∧
  ∀ s : State, s.cur.Ready →
    exec .getStratum s = .next (s.setCur (s.cur.ok (.b8 (s.cur.buf.read 1)))) ∧
    exec .getPoll s = .next (s.setCur (s.cur.ok (.b8 (s.cur.buf.read 2)))) ∧
    exec .getPrecision s = .next (s.setCur (s.cur.ok (.b8 (s.cur.buf.read 3)))) ∧
    exec .getRootDelay s = .next (s.setCur (s.cur.ok (.b32 (s.cur.buf.read 4
      ++ s.cur.buf.read 5 ++ s.cur.buf.read 6 ++ s.cur.buf.read 7)))) ∧
    exec .getRootDispersion s = .next (s.setCur (s.cur.ok (.b32 (s.cur.buf.read 8
      ++ s.cur.buf.read 9 ++ s.cur.buf.read 10 ++ s.cur.buf.read 11)))) ∧
    exec .getReferenceId s = .next (s.setCur (s.cur.ok (.b32 (s.cur.buf.read 12
      ++ s.cur.buf.read 13 ++ s.cur.buf.read 14 ++ s.cur.buf.read 15))))

/-- R27: the bytes of STRATUM to REFERENCE_ID change only by LOAD and INIT_DEFAULT. -/
def Obligations.HeaderScalarsChangeOnlyByConstruction : Prop :=
  ∀ (i : Instr) (s t : State), exec i s = .next t → i ≠ .initDefault → (∀ b, i ≠ .load b) →
    ∀ a, 1 ≤ a → a < 16 → t.cur.buf.read a = s.cur.buf.read a

/-- R141: DECODE gives absent for the zero field, and otherwise the floor of toNat(r)·TPS/2^32, which
an Int64 holds. -/
def Obligations.DecodeIsExactFloor : Prop :=
  ∀ g : Config, g.lawful → decodeTime g.tps 0 = none ∧
    ∀ r : BitVec 64, r ≠ 0 →
      ∃ t, decodeTime g.tps r = some t ∧ t.toInt = ((r.toNat * g.tps / 2 ^ 32 : Nat) : Int)

/-- DECODE split into seconds and fraction, its range, and that a decoded value is in the domain of
ENCODE. -/
def Obligations.DecodeSplitAndRange : Prop :=
  ∀ g : Config, g.lawful → ∀ (r : BitVec 64) (t : Time), decodeTime g.tps r = some t →
    t.toInt = (((r.extractLsb' 32 32).toNat * g.tps
      + (r.extractLsb' 0 32).toNat * g.tps / 2 ^ 32 : Nat) : Int) ∧
    0 ≤ t.toInt ∧ t.toInt ≤ 2 ^ 32 * g.tps - 1 ∧ ∃ r', encodeTime g (some t) = some r'

/-- R142: ENCODE writes zeros for absent, and otherwise floor(t·2^32/TPS + 1/2), and raises E_TS_RANGE
exactly where that leaves [0, 2^64 - 1]. -/
def Obligations.EncodeRoundsToNearest : Prop :=
  ∀ g : Config, 0 < g.tps → g.encTie = .halfUp → encodeTime g none = some 0 ∧
    ∀ (t : Time) (r : Int), r = (2 * (t.toInt * 2 ^ 32) + g.tps) / (2 * g.tps) →
      (r < 0 ∨ 2 ^ 64 - 1 < r → encodeTime g (some t) = none) ∧
      (0 ≤ r ∧ r ≤ 2 ^ 64 - 1 → ∃ v, encodeTime g (some t) = some v ∧ (v.toNat : Int) = r)

/-- The tie rule decides no result at any lawful TPS. -/
def Obligations.TieRuleNeverMatters : Prop :=
  ∀ g : Config, g.lawful → ∀ (rule : TieRule) (o : Option Time),
    encodeTime { g with encTie := rule } o = encodeTime g o

/-- The domain of ENCODE: 0 <= t <= 2^32·TPS - 1. -/
def Obligations.EncodeDomain : Prop :=
  ∀ g : Config, g.lawful → ∀ t : Time,
    (∃ r, encodeTime g (some t) = some r) ↔ 0 ≤ t.toInt ∧ t.toInt ≤ 2 ^ 32 * g.tps - 1

/-- The epoch, and no other present value, encodes to the bits of absent. -/
def Obligations.EpochAloneEncodesAsAbsent : Prop :=
  ∀ g : Config, g.lawful → ∀ t : Time,
    (encodeTime g (some t) = encodeTime g none ↔ t = 0) ∧
    ∀ r, encodeTime g (some t) = some r → 1 ≤ t.toInt → 2 ≤ r.toNat

/-- Encoding then decoding gives the tick count or one less; absent and the epoch give absent. -/
def Obligations.RoundTripLosesAtMostOneTick : Prop :=
  ∀ g : Config, g.lawful →
    (encodeTime g none).bind (decodeTime g.tps) = none ∧
    (encodeTime g (some 0)).bind (decodeTime g.tps) = none ∧
    ∀ t : Time, 1 ≤ t.toInt → t.toInt ≤ 2 ^ 32 * g.tps - 1 →
      ∃ r, encodeTime g (some t) = some r ∧
        (decodeTime g.tps r = some t ∨ decodeTime g.tps r = some (t - 1))

/-- Decoding a raw value and encoding the result never raises the bits, and lowers them by less than
2^32/TPS + 1/2; at the default TPS, raw values up to 429 decode to tick 0. -/
def Obligations.RewritingLowersRawBitsLittle : Prop :=
  ∀ g : Config, g.lawful → ∀ r : BitVec 64, r ≠ 0 →
    ∃ d r', decodeTime g.tps r = some d ∧ encodeTime g (some d) = some r' ∧
      r'.toNat ≤ r.toNat ∧ 2 * g.tps * (r.toNat - r'.toNat) < 2 * 2 ^ 32 + g.tps ∧
      (g.tps = 10000000 → r.toNat ≤ 429 → d = 0)

/-- R149, R151, R153, R155: the wire timestamp getters return DECODE of the eight bytes of their field,
big-endian, and change nothing but the ports. -/
def Obligations.WireGettersDecodeTheirField : Prop :=
  encode .getRefTs = ⟨0x1000, .nothing⟩ ∧ encode .getOrgTs = ⟨0x1200, .nothing⟩ ∧
  encode .getRcvTs = ⟨0x1400, .nothing⟩ ∧ encode .getXmtTs = ⟨0x1600, .nothing⟩ ∧
  ∀ s : State, s.cur.Ready →
    exec .getRefTs s =
      .next (s.setCur (s.cur.ok (.otime (decodeTime s.cfg.tps (s.cur.eightBytes 16))))) ∧
    exec .getOrgTs s =
      .next (s.setCur (s.cur.ok (.otime (decodeTime s.cfg.tps (s.cur.eightBytes 24))))) ∧
    exec .getRcvTs s =
      .next (s.setCur (s.cur.ok (.otime (decodeTime s.cfg.tps (s.cur.eightBytes 32))))) ∧
    exec .getXmtTs s =
      .next (s.setCur (s.cur.ok (.otime (decodeTime s.cfg.tps (s.cur.eightBytes 40)))))

/-- What R150, R152, R154 and R156 say of one wire timestamp setter at its offset. -/
def StoresTimestampAt (i : Option Time → Instr) (opc : BitVec 8) (off : Nat) : Prop :=
  (∀ o, encode (i o) = ⟨opc ++ 0#8, Din.ofTime o⟩) ∧
  ∀ (s : State) (o : Option Time), s.cur.Ready →
    (∀ r, encodeTime s.cfg o = some r → ∃ t, exec (i o) s = .next t ∧
      t.cur.status = 0 ∧ t.cur.dout = some .nothing ∧ t.cur.eightBytes off = r ∧
      (∀ a, a < off ∨ off + 8 ≤ a → t.cur.buf.read a = s.cur.buf.read a) ∧
      t.cur.pv = s.cur.pv ∧ t.cur.len = s.cur.len ∧ t.cur.dv = s.cur.dv ∧ t.cur.dt = s.cur.dt ∧
      t.cur.errlog = s.cur.errlog ∧ s.SameOthers t ∧ s.SameOutside t) ∧
    (encodeTime s.cfg o = none → exec (i o) s = .next (s.setCur (s.cur.fail .tsRange)))

/-- R150, R152, R154, R156: the wire timestamp setters store ENCODE of their operand in the eight bytes
of their field, big-endian, and nothing else; where ENCODE raises E_TS_RANGE they raise it. -/
def Obligations.WireSettersStoreTheEncoding : Prop :=
  StoresTimestampAt .setRefTs 0x11 16 ∧ StoresTimestampAt .setOrgTs 0x13 24 ∧
  StoresTimestampAt .setRcvTs 0x15 32 ∧ StoresTimestampAt .setXmtTs 0x17 40

/-- R207: ENCODE and the four wire timestamp setters raise E_TS_RANGE exactly when the rounded value leaves
[0, 2^64 - 1]; SET_DST_TS never does. -/
def Obligations.WireSettersRaiseRangeExactly : Prop :=
  ∀ (s : State) (t : Time) (i : Instr), s.cur.Ready →
    i = .setRefTs (some t) ∨ i = .setOrgTs (some t) ∨ i = .setRcvTs (some t) ∨
      i = .setXmtTs (some t) →
    (encodeTime s.cfg (some t) = none ↔
      encodedTicks s.cfg t < 0 ∨ 2 ^ 64 - 1 < encodedTicks s.cfg t) ∧
    (exec i s = .next (s.setCur (s.cur.fail .tsRange)) ↔
      encodedTicks s.cfg t < 0 ∨ 2 ^ 64 - 1 < encodedTicks s.cfg t) ∧
    ∀ o u, exec (.setDstTs o) s = .next u → u.cur.status ≠ Err.tsRange.code

/-- R157, R158: GET_DST_TS returns DT exactly when DV = 1, else absent; SET_DST_TS writes DV and DT for
any Int64, or clears DV, and touches nothing else but the ports. -/
def Obligations.DestinationRegisterCommands : Prop :=
  encode .getDstTs = ⟨0x1800, .nothing⟩ ∧
  (∀ o, encode (.setDstTs o) = ⟨0x1900, Din.ofTime o⟩) ∧
  ∀ s : State, s.cur.Ready →
    exec .getDstTs s =
      .next (s.setCur (s.cur.ok (.otime (if s.cur.dv = true then some s.cur.dt else none)))) ∧
    (∃ t, exec (.setDstTs none) s = .next t ∧ t.cur.status = 0 ∧ t.cur.dout = some .nothing ∧
      t.cur.dv = false ∧ t.cur.pv = s.cur.pv ∧ t.cur.len = s.cur.len ∧ t.cur.buf = s.cur.buf ∧
      t.cur.errlog = s.cur.errlog ∧ s.SameOthers t ∧ s.SameOutside t) ∧
    ∀ t, exec (.setDstTs (some t)) s =
      .next (s.setCur (({ s.cur with dv := true, dt := t } : Codec).ok .nothing))

/-- One of the four required timestamps of R170 is absent: the origin, receive or transmit field is all
zeros, or DV = 0. -/
def SomeAbsent (s : State) : Prop :=
  s.cur.eightBytes 24 = 0 ∨ s.cur.eightBytes 32 = 0 ∨ s.cur.eightBytes 40 = 0 ∨ s.cur.dv = false

/-- R205: GET_RTT and GET_OFFSET raise E_STATE when the origin, receive or transmit field is all zeros or
DV = 0. -/
def Obligations.MetricsRaiseStateWhenAbsent : Prop :=
  ∀ s : State, s.cur.Ready → SomeAbsent s →
    exec .getRtt s = .next (s.setCur (s.cur.fail .state)) ∧
    exec .getOffset s = .next (s.setCur (s.cur.fail .state))

/-- The four required timestamps of R170 are present and are t0 to t3. -/
def FourPresent (s : State) (t0 t1 t2 t3 : Time) : Prop :=
  decodeTime s.cfg.tps (s.cur.eightBytes 24) = some t0 ∧
  decodeTime s.cfg.tps (s.cur.eightBytes 32) = some t1 ∧
  decodeTime s.cfg.tps (s.cur.eightBytes 40) = some t2 ∧ s.cur.dv = true ∧ s.cur.dt = t3

/-- R171: GET_RTT raises E_STATE where a required timestamp is absent; else it returns
(t1 - t0) + (t3 - t2), exactly, or raises E_OVERFLOW where a difference or the sum leaves Int64. -/
def Obligations.RoundTripTimeFormula : Prop :=
  encode .getRtt = ⟨0x2000, .nothing⟩ ∧
  (∀ s : State, s.cur.Ready → SomeAbsent s →
    exec .getRtt s = .next (s.setCur (s.cur.fail .state))) ∧
  ∀ (s : State) (t0 t1 t2 t3 : Time) (a b : Int), s.cur.Ready → FourPresent s t0 t1 t2 t3 →
    a = t1.toInt - t0.toInt → b = t3.toInt - t2.toInt →
    (InInt64 a ∧ InInt64 b ∧ InInt64 (a + b) →
      ∃ d, exec .getRtt s = .next (s.setCur (s.cur.ok (.dur d))) ∧ d.toInt = a + b) ∧
    (¬ (InInt64 a ∧ InInt64 b ∧ InInt64 (a + b)) →
      exec .getRtt s = .next (s.setCur (s.cur.fail .overflow)))

/-- R172: GET_OFFSET raises E_STATE where a required timestamp is absent; else it returns HALVE of
(t1 - t0) - (t3 - t2), or raises E_OVERFLOW where a difference or the numerator leaves Int64. -/
def Obligations.CorrectionOffsetFormula : Prop :=
  encode .getOffset = ⟨0x2100, .nothing⟩ ∧
  (∀ s : State, s.cur.Ready → SomeAbsent s →
    exec .getOffset s = .next (s.setCur (s.cur.fail .state))) ∧
  ∀ (s : State) (t0 t1 t2 t3 : Time) (a b : Int), s.cur.Ready → FourPresent s t0 t1 t2 t3 →
    a = t1.toInt - t0.toInt → b = t3.toInt - t2.toInt →
    (InInt64 a ∧ InInt64 b ∧ InInt64 (a - b) →
      ∃ d, exec .getOffset s = .next (s.setCur (s.cur.ok (.dur d))) ∧
        d.toInt = halveBy s.cfg.halve (a - b)) ∧
    (¬ (InInt64 a ∧ InInt64 b ∧ InInt64 (a - b)) →
      exec .getOffset s = .next (s.setCur (s.cur.fail .overflow)))

/-- R173: every value of HALVE halves even numbers exactly and is within half a tick, stays in Int64,
and the default rounds toward zero. -/
def Obligations.HalveLaw : Prop :=
  (∀ (rule : HalveRule) (n : Int), halveBy rule (2 * n) = n ∧
    2 * halveBy rule n - n ≤ 1 ∧ n - 2 * halveBy rule n ≤ 1 ∧
    (InInt64 n → InInt64 (halveBy rule n))) ∧
  Config.default.halve = .towardZero ∧
  ∀ n : Int, (0 ≤ n → halveBy .towardZero n = n / 2) ∧
    (n ≤ 0 → halveBy .towardZero n = -(-n / 2))

/-- The equivalent forms of the two metrics. -/
def Obligations.MetricsAgree : Prop :=
  ∀ (s : State) (t0 t1 t2 t3 : Time) (r d : Duration), FourPresent s t0 t1 t2 t3 →
    Answers .getRtt s (.dur r) →
    r.toInt = (t3.toInt - t0.toInt) - (t2.toInt - t1.toInt) ∧
    (Answers .getOffset s (.dur d) →
      d.toInt = halveBy s.cfg.halve ((t1.toInt - t0.toInt) + (t2.toInt - t3.toInt)) ∧
      (((t1.toInt - t0.toInt) - (t3.toInt - t2.toInt)) % 2 = 0 →
        r.toInt + 2 * d.toInt = 2 * (t1.toInt - t0.toInt)))

/-- R180: INIT_DEFAULT builds the default packet, whether PV is 0 or 1: byte 0 is 0x23, the other 47
bytes are 0, LEN = 48, DV = 0, PV = 1, and ERRLOG is unchanged. -/
def Obligations.InitDefaultBuildsThePacket : Prop :=
  encode .initDefault = ⟨0x3000, .nothing⟩ ∧
  ∀ s : State, ∃ t, exec .initDefault s = .next t ∧ t.cur.status = 0 ∧
    t.cur.dout = some .nothing ∧ t.cur.pv = true ∧ t.cur.len = 48 ∧ t.cur.dv = false ∧
    t.cur.errlog = s.cur.errlog ∧ t.cur.buf.read 0 = 0x23 ∧
    (∀ a, a ≠ 0 → t.cur.buf.read a = 0) ∧ t.cur.bytes = 0x23 :: List.replicate 47 0 ∧
    s.SameOthers t ∧ s.SameOutside t

/-- R183, R185: LOAD of 48 to BUF_MAX bytes stores every byte verbatim, sets LEN and PV, clears DV and
keeps ERRLOG, and READ_BUF then returns the bytes; LOAD of any other length raises E_SIZE and keeps
the packet. -/
def Obligations.LoadCopiesAcceptedBytes : Prop :=
  (∀ b, encode (.load b) = ⟨0x3100, .bytes b⟩) ∧
  ∀ (s : State) (b : List Byte),
    (48 ≤ b.length → b.length ≤ s.cfg.bufMax → ∃ t, exec (.load b) s = .next t ∧
      t.cur.status = 0 ∧ t.cur.dout = some .nothing ∧ t.cur.pv = true ∧
      t.cur.len = b.length ∧ t.cur.dv = false ∧
      t.cur.errlog = s.cur.errlog ∧ (∀ a, a < b.length → b[a]? = some (t.cur.buf.read a)) ∧
      Answers .readBuf t (.bytes b) ∧ s.SameOthers t ∧ s.SameOutside t) ∧
    (b.length < 48 ∨ s.cfg.bufMax < b.length →
      exec (.load b) s = .next (s.setCur (s.cur.fail .size)))

/-- R186: READ_BUF returns the LEN bytes of BUF in order, trailing bytes included, and changes nothing
but the ports; while PV = 0 it raises E_NO_PACKET. -/
def Obligations.ReadBufReturnsEveryByte : Prop :=
  encode .readBuf = ⟨0x3200, .nothing⟩ ∧
  (∀ s : State, s.cur.pv = false →
    exec .readBuf s = .next (s.setCur (s.cur.fail .noPacket))) ∧
  ∀ s : State, s.cur.Ready → ∃ bs, exec .readBuf s = .next (s.setCur (s.cur.ok (.bytes bs))) ∧
    bs.length = s.cur.len ∧ ∀ j, j < s.cur.len → bs[j]? = some (s.cur.buf.read j)

/-- R210: while PV = 0, every command other than INIT_DEFAULT and LOAD raises E_NO_PACKET. -/
def Obligations.NoPacketGuard : Prop :=
  ∀ (i : Instr) (s : State), s.cur.pv = false → i ≠ .initDefault → (∀ b, i ≠ .load b) →
    exec i s = .next (s.setCur (s.cur.fail .noPacket))

/-- R32: only a successful INIT_DEFAULT or LOAD sets PV, no command clears it, and while it is 0 every
other command raises E_NO_PACKET. -/
def Obligations.PacketValidSetOnlyByConstructors : Prop :=
  ∀ (i : Instr) (s t : State), exec i s = .next t →
    (s.cur.pv = true → t.cur.pv = true) ∧
    (s.cur.pv = false → (t.cur.pv = true ↔
      t.cur.status = 0 ∧ (i = .initDefault ∨ ∃ b, i = .load b))) ∧
    (s.cur.pv = false → i ≠ .initDefault → (∀ b, i ≠ .load b) → t.cur.status = Err.noPacket.code)

/-- R200, R201: a command that ends with an error shows its code, gives no result, keeps PV, LEN, BUF, DV and DT, and
puts its code in ERRLOG if that held 0; a command that succeeds keeps ERRLOG. -/
def Obligations.ErrorsArePrecise : Prop :=
  ∀ (c : Command) (s t : State), runCommand c s = .next t →
    (t.cur.status ≠ 0 → (∃ e : Err, t.cur.status = e.code) ∧ t.cur.dout = none ∧
      s.cur.SamePacket t.cur ∧
      t.cur.errlog = if s.cur.errlog = 0 then t.cur.status else s.cur.errlog) ∧
    (t.cur.status = 0 → t.cur.errlog = s.cur.errlog)

/-- R202: a command that raises nothing ends with STATUS = 0 and its result of the kind R62 and R65 list
for it in DOUT. -/
def Obligations.SuccessGivesResultOfItsKind : Prop :=
  ∀ (i : Instr) (s t : State), exec i s = .next t →
    ((∀ e, t ≠ s.setCur (s.cur.fail e)) → t.cur.status = 0) ∧
    (t.cur.status = 0 → ∃ d, t.cur.dout = some d ∧ d.kind = i.doutKind) ∧
    (t.cur.dout.isSome = true → t.cur.status = 0)

/-- R214: the priority of errors. Each clause holds whatever the conditions of the later ones. -/
def Obligations.ErrorPriority : Prop :=
  ∀ (c : Command) (s : State),
    (∀ e, decode c = .error e → runCommand c s = .next (s.setCur (s.cur.fail .illegal))) ∧
    (∀ i, decode c = .ok i → i.constructs = false → s.cur.pv = false →
      runCommand c s = .next (s.setCur (s.cur.fail .noPacket))) ∧
    (∀ b, decode c = .ok (.load b) → b.length < 48 ∨ s.cfg.bufMax < b.length →
      runCommand c s = .next (s.setCur (s.cur.fail .size))) ∧
    (s.cur.Ready →
      (∀ v, decode c = .ok (.setMode v) → s.cfg.modeStrict = true → v ≠ 3 → v ≠ 4 →
        runCommand c s = .next (s.setCur (s.cur.fail .modeDomain))) ∧
      (∀ o, encodeTime s.cfg o = none → decode c = .ok (.setRefTs o) ∨
          decode c = .ok (.setOrgTs o) ∨ decode c = .ok (.setRcvTs o) ∨
          decode c = .ok (.setXmtTs o) →
        runCommand c s = .next (s.setCur (s.cur.fail .tsRange))) ∧
      (decode c = .ok .getRtt ∨ decode c = .ok .getOffset →
        SomeAbsent s →
        runCommand c s = .next (s.setCur (s.cur.fail .state))) ∧
      (∀ t0 t1 t2 t3, FourPresent s t0 t1 t2 t3 →
        decode c = .ok .getRtt ∨ decode c = .ok .getOffset →
        ¬ InInt64 (t1.toInt - t0.toInt) ∨ ¬ InInt64 (t3.toInt - t2.toInt) →
        runCommand c s = .next (s.setCur (s.cur.fail .overflow))))

/-- The numbers of the error codes, in the order of R203's table, 1 to 7 for the codec and 8 to 10 for
the exchange; and each command raises only the errors that table lists for it. -/
def Obligations.CommandsRaiseOnlyTheirErrors : Prop :=
  (Err.size.code = 1 ∧ Err.state.code = 2 ∧ Err.modeDomain.code = 3 ∧ Err.tsRange.code = 4 ∧
    Err.overflow.code = 5 ∧ Err.illegal.code = 6 ∧ Err.noPacket.code = 7 ∧
    HostErr.range.code = 8 ∧ HostErr.transport.code = 9 ∧ HostErr.released.code = 10) ∧
  ∀ (i : Instr) (s t : State), exec i s = .next t → t.cur.status ≠ 0 →
    ∃ e, e ∈ i.errors ∧ t.cur.status = e.code

/-- The frame of every command: a byte of BUF it does not store to, PV and LEN but for a constructor,
DV and DT but for SET_DST_TS and a constructor, and all of the machine outside the instance are
unchanged (the writes column of R45). -/
def Obligations.CommandFrame : Prop :=
  ∀ (i : Instr) (s t : State), exec i s = .next t →
    (∀ a, i.stores a = false → t.cur.buf.read a = s.cur.buf.read a) ∧
    (i.constructs = false → t.cur.pv = s.cur.pv ∧ t.cur.len = s.cur.len) ∧
    (i.writesDestination = false → t.cur.dv = s.cur.dv ∧ t.cur.dt = s.cur.dt) ∧ s.SameOthers t ∧ s.SameOutside t

/-- A read command that succeeds changes no state, and any command that succeeds leaves the same state
and the same result when it is run again. -/
def Obligations.CommandsAreRepeatable : Prop :=
  ∀ (i : Instr) (s t : State), exec i s = .next t → t.cur.status = 0 →
    (i.reads = true → s.cur.SameState t.cur) ∧
    ∃ u, exec i t = .next u ∧ u.cur.status = 0 ∧ u.cur.dout = t.cur.dout ∧
      (∀ a, u.cur.buf.read a = t.cur.buf.read a) ∧ u.cur.pv = t.cur.pv ∧
      u.cur.len = t.cur.len ∧ u.cur.dv = t.cur.dv ∧ (t.cur.dv = true → u.cur.dt = t.cur.dt) ∧
      u.cur.errlog = t.cur.errlog

/-- R37: no command of one instance writes another's state, and what it does to its own depends on no
other instance's, nor on anything outside the instance but the parameters. -/
def Obligations.InstancesAreIndependent : Prop :=
  (∀ (i : Instr) (s t : State), exec i s = .next t → s.SameOthers t) ∧
  ∀ (i : Instr) (s s' t : State), s'.cfg = s.cfg → s'.cur = s.cur → exec i s = .next t →
    ∃ t', exec i s' = .next t' ∧ t'.cur = t.cur

/-- No command's behaviour depends on ERRLOG, and none but GET_DST_TS, GET_RTT and GET_OFFSET shows the
destination register. -/
def Obligations.ErrlogAndDestinationAreNotShown : Prop :=
  ∀ (i : Instr) (s t : State), exec i s = .next t →
    (∀ e, ∃ t', exec i (s.setCur { s.cur with errlog := e }) = .next t' ∧
      t'.cur.status = t.cur.status ∧ t'.cur.dout = t.cur.dout ∧ t.cur.SamePacket t'.cur) ∧
    (i ≠ .getDstTs → i ≠ .getRtt → i ≠ .getOffset → ∀ dv dt,
      ∃ t', exec i (s.setCur { s.cur with dv := dv, dt := dt }) = .next t' ∧
        t'.cur.status = t.cur.status ∧ t'.cur.dout = t.cur.dout ∧ t'.cur.pv = t.cur.pv ∧
        t'.cur.len = t.cur.len ∧ t'.cur.buf = t.cur.buf ∧ t'.cur.errlog = t.cur.errlog)

/-- What the spec leaves unspecified after reset and while DV = 0 is never observed: two machines that
differ only there answer every command alike and stay so. The second clause says that the reset
values the model chose (log 3, log 4, log 5) are such differences. -/
def Obligations.UnspecifiedContentsAreUnobservable : Prop :=
  (∀ (i : Instr) (s s' t : State), s'.cfg = s.cfg → s.cur.Alike s'.cur → exec i s = .next t →
    ∃ t', exec i s' = .next t' ∧ t.cur.Alike t'.cur) ∧
  ∀ (len : Nat) (buf : Memory) (dt : Time),
    Codec.reset.Alike { Codec.reset with len := len, buf := buf, dt := dt }

/-- The machine is sound right after reset, for every lawful choice of the parameters. -/
def Obligations.SoundAtReset : Prop :=
  (∀ g : Config, g.lawful → (State.resetWith g).Sound) ∧ State.reset.Sound

/-- Every step keeps the machine sound. -/
def Obligations.StepKeepsSound : Prop :=
  ∀ s t : State, s.Sound → step s = .next t → t.Sound

/-- A sound machine never stops: every step answers a next state. -/
def Obligations.SoundMachineNeverStops : Prop :=
  ∀ s : State, s.Sound → ∃ t, step s = .next t

/-- No step changes the implementation parameters. -/
def Obligations.ParametersNeverChange : Prop :=
  ∀ s t : State, step s = .next t → t.cfg = s.cfg

/-- A step took a host operation on Client `c`, after which `c` is `y` and nothing else has changed:
no other Client, no instance, no parameter, and no exchange has begun. -/
def ChangesOnlyClient (s t : State) (c : Nat) (y : Client) (rest : List HostOp) : Prop :=
  t.client c = y ∧ (∀ k, k ≠ c → t.client k = s.client k) ∧ t.codecs = s.codecs ∧ t.cfg = s.cfg ∧
    t.run = none ∧ t.pending = rest

/-- The timeout property (R193, R211): getting it returns it and changes nothing but the answer;
setting it below 1 ms (TPS/1000 ticks) raises X_RANGE and changes nothing but the answer; any other
value is taken. That the limit is compared exactly at every TPS, and that a released Client's timeout
can still be read and set, are the model's readings (log 17, log 29). -/
def Obligations.TimeoutProperty : Prop :=
  ∀ (s : State) (c : Nat) (d : Duration) (rest : List HostOp), s.run = none →
    (s.pending = .getTimeout c :: rest → ∃ t, step s = .next t ∧
      ChangesOnlyClient s t c
        { s.client c with status := 0, value := some (.duration (s.client c).timeout) } rest) ∧
    (s.pending = .setTimeout c d :: rest →
      (d.toInt * 1000 < s.cfg.tps → ∃ t, step s = .next t ∧
        ChangesOnlyClient s t c
          { s.client c with status := HostErr.range.code, value := none } rest) ∧
      (s.cfg.tps ≤ d.toInt * 1000 → ∃ t, step s = .next t ∧
        ChangesOnlyClient s t c
          { s.client c with timeout := d, status := 0, value := some .nothing } rest))

/-- A new Client has a timeout of 15000 ms, is not released and has sent nothing (R233), and its remote
endpoint, address and port, is the one it was created for (R191). That every Client after reset is a new one is the model's
choice (log 13), and so is the list of what was sent (log 19); creation as a host operation, in the
model's own line of them, is deduced (log 30, log 7). -/
def Obligations.NewClientDefaults : Prop :=
  ∀ g : Config, g.lawful →
    (∀ c, ((State.resetWith g).client c).timeout.toInt * 1000 = 15000 * g.tps ∧
      ((State.resetWith g).client c).released = false ∧
      ((State.resetWith g).client c).sent = []) ∧
    ∀ (s : State) (c : Nat) (remote : Endpoint) (rest : List HostOp),
      s.cfg = g → s.run = none → s.pending = .newClient c remote :: rest →
      ∃ t, step s = .next t ∧ (t.client c).timeout.toInt * 1000 = 15000 * g.tps ∧
        (t.client c).released = false ∧ (t.client c).sent = [] ∧ (t.client c).remote = remote

/-- Release closes the channel and is idempotent (R197), and any query after it raises X_RELEASED and
changes nothing but the Client's answer: neither the channel nor any codec instance (R197, R213). That
query() and getCorrectionOffset() check for release before they build REQ is the model's reading of
R197 against R195 (log 16). -/
def Obligations.ReleaseIsFinal : Prop :=
  ∀ (s : State) (c : Nat) (rest : List HostOp), s.run = none →
    (s.pending = .release c :: rest → ∃ t, step s = .next t ∧
      ChangesOnlyClient s t c
        { s.client c with released := true, status := 0, value := some .nothing } rest ∧
      ∃ u, step { t with pending := .release c :: rest } = .next u ∧
        ChangesOnlyClient t u c (t.client c) rest) ∧
    ∀ (op : HostOp) (req rsp : Nat) (ch : ChannelAnswer) (now now' : Time),
      (s.client c).released = true → s.pending = op :: rest →
      op = .query c req rsp ch now ∨ op = .queryDefault c req rsp ch now now' ∨
        op = .getCorrectionOffset c req rsp ch now now' →
      ∃ t, step s = .next t ∧
        ChangesOnlyClient s t c
          { s.client c with status := HostErr.released.code, value := none } rest

/-- A query whose channel gives no reply (sending fails, nothing arrives in time, or receiving fails)
raises X_TRANSPORT (R212). Nothing is sent again, REQ keeps its state, and every other instance, RSP
among them, is untouched. The count of steps is the model's choice (log 27). -/
def Obligations.TransportFailureKeepsCodecs : Prop :=
  ∀ (s : State) (c req rsp : Nat) (ch : ChannelAnswer) (now : Time) (rest : List HostOp),
    s.run = none → s.pending = .query c req rsp ch now :: rest →
    (s.client c).released = false → (s.codec req).Ready → (∀ r, ch ≠ .reply r) →
    ∃ t, Sys2Proof.core.run (if ch = .sendFails then 3 else 4) s = .next t ∧
      t.run = none ∧ t.pending = rest ∧ (t.client c).status = HostErr.transport.code ∧
      (t.client c).value = none ∧
      ((t.client c).sent = (s.client c).sent ++ [⟨(s.client c).remote, (s.codec req).bytes⟩] ∨
        ch = .sendFails ∧ (t.client c).sent = (s.client c).sent) ∧
      (s.codec req).SameState (t.codec req) ∧ ∀ k, k ≠ req → t.codec k = s.codec k

/-- query(REQ), whole (R194). With a reply of an accepted length, eight steps from taking the operation
the Client returns RSP, which holds the reply with its origin replaced by ENCODE of DECODE of the
request's and the destination stamped; the whole request buffer was sent once; and the request is
unchanged. With a reply of any other length it ends with E_SIZE (D26), RSP keeps its packet and the
request is unchanged. The count of steps is the model's choice (log 27), and REQ and RSP are distinct
(log 18). -/
def Obligations.QueryReturnsStampedReply : Prop :=
  ∀ (s : State) (c req rsp : Nat) (reply : List Byte) (now : Time) (rest : List HostOp),
    s.cfg.lawful → s.run = none → s.pending = .query c req rsp (.reply reply) now :: rest →
    (s.client c).released = false → req ≠ rsp → (s.codec req).Ready →
    (48 ≤ reply.length → reply.length ≤ s.cfg.bufMax →
      ∃ t r, Sys2Proof.core.run 8 s = .next t ∧ t.run = none ∧ t.pending = rest ∧
        (t.client c).status = 0 ∧ (t.client c).value = some (.packet rsp) ∧
        (t.client c).sent
          = (s.client c).sent ++ [⟨(s.client c).remote, (s.codec req).bytes⟩] ∧
        (s.codec req).SameState (t.codec req) ∧
        encodeTime s.cfg (decodeTime s.cfg.tps ((s.codec req).eightBytes 24)) = some r ∧
        (t.codec rsp).eightBytes 24 = r ∧
        (∀ a, a < 24 ∨ 32 ≤ a → (t.codec rsp).buf.read a = reply.getD a 0) ∧
        (t.codec rsp).pv = true ∧ (t.codec rsp).len = reply.length ∧
        (t.codec rsp).dv = true ∧ (t.codec rsp).dt = now ∧
        (t.codec rsp).errlog = (s.codec rsp).errlog) ∧
    (reply.length < 48 ∨ s.cfg.bufMax < reply.length →
      ∃ t, Sys2Proof.core.run 5 s = .next t ∧ t.run = none ∧ t.pending = rest ∧
        (t.client c).status = Err.size.code ∧ (t.client c).value = none ∧
        (s.codec req).SameState (t.codec req) ∧ (s.codec rsp).SamePacket (t.codec rsp))

/-- The first lines of query() (R195) and of getCorrectionOffset() (R196), which begins as query() does:
REQ becomes the default packet of 48 bytes with its origin stamped with the clock's reading, and the
exchange goes on as query(REQ), keeping which of the two operations it is; a reading outside the range
of ENCODE ends it with E_TS_RANGE and nothing sent. The count of steps is the model's choice
(log 27). -/
def Obligations.DefaultQueryStampsTheRequest : Prop :=
  ∀ (s : State) (c req rsp : Nat) (ch : ChannelAnswer) (now now' : Time) (rest : List HostOp)
    (op : HostOp) (w : Bool), s.run = none → s.pending = op :: rest →
    op = .queryDefault c req rsp ch now now' ∧ w = false ∨
      op = .getCorrectionOffset c req rsp ch now now' ∧ w = true →
    (s.client c).released = false →
    (∀ r, encodeTime s.cfg (some now) = some r → ∃ t, Sys2Proof.core.run 3 s = .next t ∧
      t.run = some ⟨c, req, rsp, ch, now, now', w, .readRequest⟩ ∧
      (t.codec req).pv = true ∧ (t.codec req).len = 48 ∧ (t.codec req).dv = false ∧
      (t.codec req).buf.read 0 = 0x23 ∧ (t.codec req).eightBytes 24 = r ∧
      (∀ a, a ≠ 0 → a < 24 ∨ 32 ≤ a → (t.codec req).buf.read a = 0)) ∧
    (encodeTime s.cfg (some now) = none → ∃ t, Sys2Proof.core.run 3 s = .next t ∧
      t.run = none ∧ (t.client c).status = Err.tsRange.code ∧ (t.client c).value = none ∧
      (t.client c).sent = (s.client c).sent)

/-- The assembler: every immediate in its range gives the word of the encoding (R65, with the three
examples of R69), those outside do not assemble, and REQUEST_DEFAULT gives INIT_DEFAULT and SET_ORG_TS. -/
def Obligations.AssemblerWords : Prop :=
  ∀ g : Config,
    assemble g (.command .setVn (.imm 4)) = some [⟨0x0404, .nothing⟩] ∧
    assemble g (.command .setMode (.imm 3)) = some [⟨0x0603, .nothing⟩] ∧
    assemble g (.command .setLi (.imm 3)) = some [⟨0x0203, .nothing⟩] ∧
    (∀ n, 0 ≤ n → n ≤ 3 →
      assemble g (.command .setLi (.imm n)) = some [⟨BitVec.ofInt 16 (0x0200 + n), .nothing⟩]) ∧
    (∀ n, 0 ≤ n → n ≤ 7 →
      assemble g (.command .setVn (.imm n)) = some [⟨BitVec.ofInt 16 (0x0400 + n), .nothing⟩] ∧
      assemble g (.command .setMode (.imm n)) = some [⟨BitVec.ofInt 16 (0x0600 + n), .nothing⟩]) ∧
    (∀ n, n < 0 ∨ 3 < n → assemble g (.command .setLi (.imm n)) = none) ∧
    (∀ n, n < 0 ∨ 7 < n → assemble g (.command .setVn (.imm n)) = none ∧
      assemble g (.command .setMode (.imm n)) = none) ∧
    ∀ t o, t.operand g = some o →
      assemble g (.requestDefault t) = some [⟨0x3000, .nothing⟩, ⟨0x1300, Din.ofTime o⟩]
end

