-- ==== Sys2Proof/Laws/Sparse.lean ====
section
/-! SUPPORT. The laws of the sparse map: reading what was written, reading elsewhere, and keeping the
canonical form. -/

namespace Sys2Proof.Machine

variable {α : Type}

theorem Sparse.get_erase_same (d : α) (k : Nat) (l : List (Nat × α)) :
    Sparse.get d k (Sparse.erase k l) = d := by
  induction l with
  | nil => rfl
  | cons c rest ih =>
    obtain ⟨j, w⟩ := c
    by_cases h : j = k <;> simp [Sparse.erase, Sparse.get, h, ih]

theorem Sparse.get_erase_other (d : α) {k k' : Nat} (hk : k' ≠ k) (l : List (Nat × α)) :
    Sparse.get d k' (Sparse.erase k l) = Sparse.get d k' l := by
  induction l with
  | nil => rfl
  | cons c rest ih =>
    obtain ⟨j, w⟩ := c
    by_cases h : j = k
    · simp [Sparse.erase, Sparse.get, h, ih, Ne.symm hk]
    · simp [Sparse.erase, Sparse.get, h, ih]

theorem Sparse.get_insert_other (d : α) {k k' : Nat} (hk : k' ≠ k) (v : α) (l : List (Nat × α)) :
    Sparse.get d k' (Sparse.insert k v l) = Sparse.get d k' l := by
  induction l with
  | nil => simp [Sparse.insert, Sparse.get, Ne.symm hk]
  | cons c rest ih =>
    obtain ⟨j, w⟩ := c
    by_cases h : k < j <;> simp [Sparse.insert, Sparse.get, h, ih, Ne.symm hk]

/-- Keys of an erased list are keys of the list, and not the erased one. -/
theorem Sparse.mem_erase {k : Nat} {c : Nat × α} {l : List (Nat × α)} (h : c ∈ Sparse.erase k l) :
    c ∈ l ∧ c.1 ≠ k := by
  induction l with
  | nil => simp [Sparse.erase] at h
  | cons e rest ih =>
    obtain ⟨j, w⟩ := e
    by_cases hj : j = k
    · rw [Sparse.erase, if_pos hj] at h
      exact ⟨List.mem_cons_of_mem _ (ih h).1, (ih h).2⟩
    · rw [Sparse.erase, if_neg hj, List.mem_cons] at h
      rcases h with rfl | h
      · exact ⟨List.mem_cons_self, hj⟩
      · exact ⟨List.mem_cons_of_mem _ (ih h).1, (ih h).2⟩

theorem Sparse.get_insert_same (d : α) (k : Nat) (v : α) {l : List (Nat × α)}
    (hl : ∀ c ∈ l, c.1 ≠ k) : Sparse.get d k (Sparse.insert k v l) = v := by
  induction l with
  | nil => simp [Sparse.insert, Sparse.get]
  | cons c rest ih =>
    obtain ⟨j, w⟩ := c
    have hj : j ≠ k := hl (j, w) List.mem_cons_self
    by_cases h : k < j
    · simp [Sparse.insert, Sparse.get, h]
    · simp [Sparse.insert, Sparse.get, h, hj, ih fun c hc => hl c (List.mem_cons_of_mem _ hc)]

theorem Sparse.mem_insert {k : Nat} {v : α} {c : Nat × α} {l : List (Nat × α)}
    (h : c ∈ Sparse.insert k v l) : c = (k, v) ∨ c ∈ l := by
  induction l with
  | nil => simpa [Sparse.insert] using h
  | cons e rest ih =>
    obtain ⟨j, w⟩ := e
    by_cases hj : k < j
    · rw [Sparse.insert, if_pos hj] at h
      simpa using h
    · rw [Sparse.insert, if_neg hj, List.mem_cons] at h
      rcases h with rfl | h
      · exact .inr List.mem_cons_self
      · exact (ih h).imp id (List.mem_cons_of_mem _)

variable [DecidableEq α]

/-- Reading the key just written gives the value written. -/
@[simp] theorem Sparse.get_put_same (d : α) (k : Nat) (v : α) (l : List (Nat × α)) :
    Sparse.get d k (Sparse.put d k v l) = v := by
  unfold Sparse.put
  split
  · rename_i h
    rw [h, Sparse.get_erase_same]
  · exact Sparse.get_insert_same d k v fun c hc => (Sparse.mem_erase hc).2

/-- A write leaves every other key alone. -/
theorem Sparse.get_put_other (d : α) {k k' : Nat} (hk : k' ≠ k) (v : α) (l : List (Nat × α)) :
    Sparse.get d k' (Sparse.put d k v l) = Sparse.get d k' l := by
  unfold Sparse.put
  split
  · exact Sparse.get_erase_other d hk l
  · rw [Sparse.get_insert_other d hk, Sparse.get_erase_other d hk]

theorem Sparse.get_put (d : α) (k k' : Nat) (v : α) (l : List (Nat × α)) :
    Sparse.get d k' (Sparse.put d k v l) = if k' = k then v else Sparse.get d k' l := by
  by_cases h : k' = k
  · subst h; simp
  · rw [if_neg h, Sparse.get_put_other d h]

theorem Sparse.wf_cons {d v : α} {k : Nat} {rest : List (Nat × α)} :
    Sparse.wf d ((k, v) :: rest) = true ↔
      v ≠ d ∧ (∀ c ∈ rest, k < c.1) ∧ Sparse.wf d rest = true := by
  simp [Sparse.wf, and_assoc]

theorem Sparse.wf_erase {d : α} (k : Nat) {l : List (Nat × α)} (h : Sparse.wf d l = true) :
    Sparse.wf d (Sparse.erase k l) = true := by
  induction l with
  | nil => rfl
  | cons c rest ih =>
    obtain ⟨j, w⟩ := c
    obtain ⟨hw, hlt, hrest⟩ := Sparse.wf_cons.1 h
    by_cases hj : j = k
    · rw [Sparse.erase, if_pos hj]
      exact ih hrest
    · rw [Sparse.erase, if_neg hj]
      exact Sparse.wf_cons.2 ⟨hw, fun c hc => hlt c (Sparse.mem_erase hc).1, ih hrest⟩

theorem Sparse.wf_insert {d v : α} {k : Nat} {l : List (Nat × α)} (hv : v ≠ d)
    (hk : ∀ c ∈ l, c.1 ≠ k) (h : Sparse.wf d l = true) : Sparse.wf d (Sparse.insert k v l) = true := by
  induction l with
  | nil => simp [Sparse.insert, Sparse.wf, hv]
  | cons c rest ih =>
    obtain ⟨j, w⟩ := c
    obtain ⟨hw, hlt, hrest⟩ := Sparse.wf_cons.1 h
    by_cases hj : k < j
    · rw [Sparse.insert, if_pos hj]
      refine Sparse.wf_cons.2 ⟨hv, fun c hc => ?_, h⟩
      rcases List.mem_cons.1 hc with rfl | hc
      · exact hj
      · exact hj.trans (hlt c hc)
    · rw [Sparse.insert, if_neg hj]
      have hjk : j < k := by
        have := hk (j, w) List.mem_cons_self
        simp only at this
        omega
      refine Sparse.wf_cons.2
        ⟨hw, fun c hc => ?_, ih (fun c hc => hk c (List.mem_cons_of_mem _ hc)) hrest⟩
      rcases Sparse.mem_insert hc with rfl | hc
      · exact hjk
      · exact hlt c hc

/-- A write keeps the canonical form. -/
theorem Sparse.wf_put {d : α} (k : Nat) (v : α) {l : List (Nat × α)} (h : Sparse.wf d l = true) :
    Sparse.wf d (Sparse.put d k v l) = true := by
  unfold Sparse.put
  split
  · exact Sparse.wf_erase k h
  · exact Sparse.wf_insert ‹_› (fun c hc => (Sparse.mem_erase hc).2) (Sparse.wf_erase k h)

/-- The keys after a write are the key written and keys from before. -/
theorem Sparse.mem_put {d : α} {k : Nat} {v : α} {c : Nat × α} {l : List (Nat × α)}
    (h : c ∈ Sparse.put d k v l) : c = (k, v) ∨ c ∈ l := by
  unfold Sparse.put at h
  split at h
  · exact .inr (Sparse.mem_erase h).1
  · exact (Sparse.mem_insert h).imp id fun h => (Sparse.mem_erase h).1

end Sys2Proof.Machine
end

