-- ==== Sys2Proof/Laws/State.lean ====
section
/-! SUPPORT. The small lemmas of the state: one for each field and each update, true by rfl, and the
reads of an instance or Client after one was replaced. -/

namespace Sys2Proof.Machine

variable (s : State) (x : Codec) (y : Client) (k c : Nat)

@[simp] theorem State.putCodec_cfg : (s.putCodec k x).cfg = s.cfg := rfl
@[simp] theorem State.putCodec_clients : (s.putCodec k x).clients = s.clients := rfl
@[simp] theorem State.putCodec_run : (s.putCodec k x).run = s.run := rfl
@[simp] theorem State.putCodec_sel : (s.putCodec k x).sel = s.sel := rfl
@[simp] theorem State.putCodec_pending : (s.putCodec k x).pending = s.pending := rfl
@[simp] theorem State.putCodec_client : (s.putCodec k x).client c = s.client c := rfl

@[simp] theorem State.setCur_cfg : (s.setCur x).cfg = s.cfg := rfl
@[simp] theorem State.setCur_clients : (s.setCur x).clients = s.clients := rfl
@[simp] theorem State.setCur_run : (s.setCur x).run = s.run := rfl
@[simp] theorem State.setCur_sel : (s.setCur x).sel = s.sel := rfl
@[simp] theorem State.setCur_pending : (s.setCur x).pending = s.pending := rfl
@[simp] theorem State.setCur_client : (s.setCur x).client c = s.client c := rfl

@[simp] theorem State.putClient_cfg : (s.putClient c y).cfg = s.cfg := rfl
@[simp] theorem State.putClient_codecs : (s.putClient c y).codecs = s.codecs := rfl
@[simp] theorem State.putClient_run : (s.putClient c y).run = s.run := rfl
@[simp] theorem State.putClient_sel : (s.putClient c y).sel = s.sel := rfl
@[simp] theorem State.putClient_pending : (s.putClient c y).pending = s.pending := rfl
@[simp] theorem State.putClient_codec : (s.putClient c y).codec k = s.codec k := rfl

@[simp] theorem State.select_cfg : (s.select k).cfg = s.cfg := rfl
@[simp] theorem State.select_codecs : (s.select k).codecs = s.codecs := rfl
@[simp] theorem State.select_clients : (s.select k).clients = s.clients := rfl
@[simp] theorem State.select_run : (s.select k).run = s.run := rfl
@[simp] theorem State.select_sel : (s.select k).sel = k := rfl
@[simp] theorem State.select_pending : (s.select k).pending = s.pending := rfl
@[simp] theorem State.select_codec (j : Nat) : (s.select k).codec j = s.codec j := rfl
@[simp] theorem State.select_client : (s.select k).client c = s.client c := rfl
@[simp] theorem State.select_cur : (s.select k).cur = s.codec k := rfl

@[simp] theorem State.goTo_cfg (e : Exchange) (p : Phase) : (s.goTo e p).cfg = s.cfg := rfl
@[simp] theorem State.goTo_codecs (e : Exchange) (p : Phase) : (s.goTo e p).codecs = s.codecs := rfl
@[simp] theorem State.goTo_clients (e : Exchange) (p : Phase) : (s.goTo e p).clients = s.clients := rfl
@[simp] theorem State.goTo_run (e : Exchange) (p : Phase) :
    (s.goTo e p).run = some { e with phase := p } := rfl
@[simp] theorem State.goTo_pending (e : Exchange) (p : Phase) : (s.goTo e p).pending = s.pending := rfl
@[simp] theorem State.goTo_codec (e : Exchange) (p : Phase) : (s.goTo e p).codec k = s.codec k := rfl
@[simp] theorem State.goTo_client (e : Exchange) (p : Phase) : (s.goTo e p).client c = s.client c := rfl

/-- Reading the instance just replaced. -/
@[simp] theorem State.codec_putCodec_same : (s.putCodec k x).codec k = x :=
  Sparse.get_put_same _ _ _ _

/-- Replacing one instance leaves every other alone (R37). -/
theorem State.codec_putCodec_other {j : Nat} (h : j ≠ k) : (s.putCodec k x).codec j = s.codec j :=
  Sparse.get_put_other _ h _ _

@[simp] theorem State.cur_setCur : (s.setCur x).cur = x := Sparse.get_put_same _ _ _ _

@[simp] theorem State.codec_setCur_sel : (s.setCur x).codec s.sel = x := Sparse.get_put_same _ _ _ _

theorem State.codec_setCur_other {j : Nat} (h : j ≠ s.sel) : (s.setCur x).codec j = s.codec j :=
  Sparse.get_put_other _ h _ _

/-- Reading the Client just replaced. -/
@[simp] theorem State.client_putClient_same : (s.putClient c y).client c = y :=
  Sparse.get_put_same _ _ _ _

/-- Replacing one Client leaves every other alone (R199). -/
theorem State.client_putClient_other {j : Nat} (h : j ≠ c) : (s.putClient c y).client j = s.client j :=
  Sparse.get_put_other _ h _ _

@[simp] theorem State.resetWith_codec (g : Config) : (State.resetWith g).codec k = Codec.reset := rfl
@[simp] theorem State.resetWith_client (g : Config) :
    (State.resetWith g).client c = Client.fresh g Endpoint.unset := rfl

variable (e : Err) (d : Dout) (o : Option Time) (b : List Byte)

/-- No error has the code of OK (R203). -/
@[simp] theorem Err.code_ne_zero : e.code ≠ 0#4 := by cases e <;> decide

@[simp] theorem Codec.fail_pv : (x.fail e).pv = x.pv := rfl
@[simp] theorem Codec.fail_len : (x.fail e).len = x.len := rfl
@[simp] theorem Codec.fail_buf : (x.fail e).buf = x.buf := rfl
@[simp] theorem Codec.fail_dv : (x.fail e).dv = x.dv := rfl
@[simp] theorem Codec.fail_dt : (x.fail e).dt = x.dt := rfl
@[simp] theorem Codec.fail_errlog :
    (x.fail e).errlog = if x.errlog = 0 then e.code else x.errlog := rfl
@[simp] theorem Codec.fail_status : (x.fail e).status = e.code := rfl
@[simp] theorem Codec.fail_dout : (x.fail e).dout = none := rfl

@[simp] theorem Codec.ok_pv : (x.ok d).pv = x.pv := rfl
@[simp] theorem Codec.ok_len : (x.ok d).len = x.len := rfl
@[simp] theorem Codec.ok_buf : (x.ok d).buf = x.buf := rfl
@[simp] theorem Codec.ok_dv : (x.ok d).dv = x.dv := rfl
@[simp] theorem Codec.ok_dt : (x.ok d).dt = x.dt := rfl
@[simp] theorem Codec.ok_errlog : (x.ok d).errlog = x.errlog := rfl
@[simp] theorem Codec.ok_status : (x.ok d).status = 0 := rfl
@[simp] theorem Codec.ok_dout : (x.ok d).dout = some d := rfl

@[simp] theorem Codec.withBuf_pv (m : Memory) : (x.withBuf m).pv = x.pv := rfl
@[simp] theorem Codec.withBuf_len (m : Memory) : (x.withBuf m).len = x.len := rfl
@[simp] theorem Codec.withBuf_buf (m : Memory) : (x.withBuf m).buf = m := rfl
@[simp] theorem Codec.withBuf_dv (m : Memory) : (x.withBuf m).dv = x.dv := rfl
@[simp] theorem Codec.withBuf_dt (m : Memory) : (x.withBuf m).dt = x.dt := rfl
@[simp] theorem Codec.withBuf_errlog (m : Memory) : (x.withBuf m).errlog = x.errlog := rfl

@[simp] theorem Codec.initialised_pv : x.initialised.pv = true := rfl
@[simp] theorem Codec.initialised_len : x.initialised.len = bufMin := rfl
@[simp] theorem Codec.initialised_buf : x.initialised.buf = Memory.write [] 0 defaultByte0 := rfl
@[simp] theorem Codec.initialised_dv : x.initialised.dv = false := rfl
@[simp] theorem Codec.initialised_dt : x.initialised.dt = x.dt := rfl
@[simp] theorem Codec.initialised_errlog : x.initialised.errlog = x.errlog := rfl

@[simp] theorem Codec.loaded_pv : (x.loaded b).pv = true := rfl
@[simp] theorem Codec.loaded_len : (x.loaded b).len = b.length := rfl
@[simp] theorem Codec.loaded_buf : (x.loaded b).buf = Memory.ofBytes b := rfl
@[simp] theorem Codec.loaded_dv : (x.loaded b).dv = false := rfl
@[simp] theorem Codec.loaded_dt : (x.loaded b).dt = x.dt := rfl
@[simp] theorem Codec.loaded_errlog : (x.loaded b).errlog = x.errlog := rfl

@[simp] theorem Codec.setDestination_pv : (x.setDestination o).pv = x.pv := by cases o <;> rfl
@[simp] theorem Codec.setDestination_len : (x.setDestination o).len = x.len := by cases o <;> rfl
@[simp] theorem Codec.setDestination_buf : (x.setDestination o).buf = x.buf := by cases o <;> rfl
@[simp] theorem Codec.setDestination_errlog : (x.setDestination o).errlog = x.errlog := by
  cases o <;> rfl
@[simp] theorem Codec.setDestination_dv : (x.setDestination o).dv = o.isSome := by cases o <;> rfl
@[simp] theorem Codec.setDestination_dt : (x.setDestination o).dt = o.getD x.dt := by cases o <;> rfl

end Sys2Proof.Machine
end

