-- ==== Sys2Proof/Laws/Memory.lean ====
section
/-! SUPPORT. The laws of the packet buffer: reading what was written, reading elsewhere, big-endian
words, copying bytes in and out, and keeping the canonical form. -/

namespace Sys2Proof.Machine

variable (m : Memory)

@[simp] theorem Memory.read_nil (a : Nat) : Memory.read [] a = 0 := rfl

/-- Reading the offset just written. -/
@[simp] theorem Memory.read_write_same (a : Nat) (b : Byte) : (m.write a b).read a = b :=
  Sparse.get_put_same _ _ _ _

/-- A write leaves every other offset alone. -/
theorem Memory.read_write_other {a a' : Nat} (h : a' ≠ a) (b : Byte) :
    (m.write a b).read a' = m.read a' := Sparse.get_put_other _ h _ _

theorem Memory.read_write (a a' : Nat) (b : Byte) :
    (m.write a b).read a' = if a' = a then b else m.read a' := Sparse.get_put _ _ _ _ _

/-- A write keeps the canonical form. -/
theorem Memory.wf_write {m : Memory} (h : m.wf = true) (a : Nat) (b : Byte) :
    (m.write a b).wf = true := Sparse.wf_put a b h

@[simp] theorem Memory.wf_nil : Memory.wf [] = true := rfl

theorem Memory.mem_write {m : Memory} {a : Nat} {b : Byte} {c : Host.Cell} (h : c ∈ m.write a b) :
    c.1 = a ∨ c ∈ m := (Sparse.mem_put h).imp (fun h => by rw [h]) id

/-- What a byte reads as after bytes were written from `off` up. -/
theorem Memory.read_writeBytes (off a : Nat) (bs : List Byte) :
    (m.writeBytes off bs).read a =
      if off ≤ a ∧ a < off + bs.length then bs.getD (a - off) 0 else m.read a := by
  induction bs generalizing off with
  | nil => simp [Memory.writeBytes]
  | cons b bs ih =>
    rw [Memory.writeBytes, Memory.read_write]
    by_cases h : a = off
    · subst h; simp
    · rw [if_neg h, ih]
      by_cases h1 : off + 1 ≤ a ∧ a < off + 1 + bs.length
      · obtain ⟨j, rfl⟩ : ∃ j, a = off + 1 + j := ⟨a - (off + 1), by omega⟩
        have e : off + 1 + j - off = j + 1 := by omega
        have e' : off + 1 + j - (off + 1) = j := by omega
        rw [if_pos h1, if_pos ⟨by omega, by rw [List.length_cons]; omega⟩, e, e', List.getD_cons_succ]
      · rw [if_neg h1, if_neg (by rw [List.length_cons]; omega)]

theorem Memory.wf_writeBytes {m : Memory} (h : m.wf = true) (off : Nat) (bs : List Byte) :
    (m.writeBytes off bs).wf = true := by
  induction bs generalizing off with
  | nil => exact h
  | cons b bs ih => exact Memory.wf_write (ih _) _ _

theorem Memory.mem_writeBytes {m : Memory} {off : Nat} {bs : List Byte} {c : Host.Cell}
    (h : c ∈ m.writeBytes off bs) : (off ≤ c.1 ∧ c.1 < off + bs.length) ∨ c ∈ m := by
  induction bs generalizing off with
  | nil => exact .inr h
  | cons b bs ih =>
    rw [List.length_cons]
    rcases Memory.mem_write h with h | h
    · exact .inl ⟨by omega, by omega⟩
    · exact (ih h).imp (fun h => ⟨by omega, by omega⟩) id

@[simp] theorem bytesOf64_length (v : BitVec 64) : (bytesOf64 v).length = 8 := rfl

/-- The bytes of a value, put together again (R40). -/
theorem append_bytesOf64 (v : BitVec 64) :
    (v.extractLsb' 56 8 ++ v.extractLsb' 48 8 ++ v.extractLsb' 40 8 ++ v.extractLsb' 32 8
      ++ (v.extractLsb' 24 8 ++ v.extractLsb' 16 8 ++ v.extractLsb' 8 8 ++ v.extractLsb' 0 8)
      : BitVec 64) = v := by
  iterate 7 rw [BitVec.extractLsb'_append_extractLsb'_eq_extractLsb' (by rfl)]
  exact BitVec.extractLsb'_eq_self

/-- The bytes of a timestamp just written (R13). -/
theorem Memory.read_write64_same (off j : Nat) (h : j < 8) (v : BitVec 64) :
    (m.write64 off v).read (off + j) = (bytesOf64 v).getD j 0 := by
  rw [Memory.write64, Memory.read_writeBytes, if_pos ⟨by omega, by rw [bytesOf64_length]; omega⟩,
    Nat.add_sub_cancel_left]

/-- A timestamp write leaves every byte outside its field alone. -/
theorem Memory.read_write64_other {off a : Nat} (h : a < off ∨ off + 8 ≤ a) (v : BitVec 64) :
    (m.write64 off v).read a = m.read a := by
  rw [Memory.write64, Memory.read_writeBytes, if_neg (by rw [bytesOf64_length]; omega)]

/-- The timestamp just written reads back (R41). -/
@[simp] theorem Memory.read64_write64_same (off : Nat) (v : BitVec 64) :
    (m.write64 off v).read64 off = v := by
  have h := fun j hj => Memory.read_write64_same m off j hj v
  have h0 := h 0 (by omega)
  simp only [Nat.add_zero] at h0
  simp only [Memory.read64, Memory.read32, Nat.add_assoc, Nat.reduceAdd, h0, h 1 (by omega),
    h 2 (by omega), h 3 (by omega), h 4 (by omega), h 5 (by omega), h 6 (by omega), h 7 (by omega),
    bytesOf64, List.getD_cons_zero, List.getD_cons_succ]
  exact append_bytesOf64 v

/-- A read of eight bytes depends on those bytes alone. -/
theorem Memory.read64_congr {m m' : Memory} {off : Nat}
    (h : ∀ a, off ≤ a → a < off + 8 → m'.read a = m.read a) : m'.read64 off = m.read64 off := by
  simp only [Memory.read64, Memory.read32, Nat.add_assoc]
  rw [h off (by omega) (by omega), h (off + 1) (by omega) (by omega), h (off + 2) (by omega) (by omega),
    h (off + 3) (by omega) (by omega), h (off + 4) (by omega) (by omega),
    h (off + (4 + 1)) (by omega) (by omega), h (off + (4 + 2)) (by omega) (by omega),
    h (off + (4 + 3)) (by omega) (by omega)]

/-- Writing one wire timestamp leaves the others alone (R148). -/
theorem Memory.read64_write64_other {f f' : WireTs} (h : f' ≠ f) (v : BitVec 64) :
    (m.write64 f.offset v).read64 f'.offset = m.read64 f'.offset := by
  refine Memory.read64_congr fun a h1 h2 => Memory.read_write64_other m ?_ v
  cases f <;> cases f' <;> simp_all [WireTs.offset] <;> omega

theorem Memory.wf_write64 {m : Memory} (h : m.wf = true) (off : Nat) (v : BitVec 64) :
    (m.write64 off v).wf = true := Memory.wf_writeBytes h _ _

theorem Memory.wf_ofBytes (bs : List Byte) : (Memory.ofBytes bs).wf = true :=
  Memory.wf_writeBytes Memory.wf_nil _ _

theorem Memory.read_ofBytes (bs : List Byte) (a : Nat) : (Memory.ofBytes bs).read a = bs.getD a 0 := by
  rw [Memory.ofBytes, Memory.read_writeBytes]
  by_cases h : a < bs.length
  · simp [h]
  · simp [h]

@[simp] theorem Memory.readBytes_length (off n : Nat) : (m.readBytes off n).length = n := by
  induction n generalizing off with
  | zero => rfl
  | succ n ih => rw [Memory.readBytes, List.length_cons, ih]

theorem Memory.getElem?_readBytes (off n j : Nat) (h : j < n) :
    (m.readBytes off n)[j]? = some (m.read (off + j)) := by
  induction n generalizing off j with
  | zero => omega
  | succ n ih =>
    cases j with
    | zero => simp [Memory.readBytes]
    | succ j =>
      rw [Memory.readBytes, List.getElem?_cons_succ, ih _ _ (by omega), Nat.add_assoc, Nat.add_comm 1 j]

/-- Copying bytes in and out again gives them back (R183, R186). -/
theorem Memory.readBytes_ofBytes (bs : List Byte) :
    (Memory.ofBytes bs).readBytes 0 bs.length = bs := by
  refine List.ext_getElem? fun j => ?_
  by_cases h : j < bs.length
  · rw [Memory.getElem?_readBytes _ _ _ _ h, Nat.zero_add, Memory.read_ofBytes,
      List.getD_eq_getElem _ _ h, List.getElem?_eq_getElem h]
  · rw [List.getElem?_eq_none (by rw [Memory.readBytes_length]; omega),
      List.getElem?_eq_none (by omega)]

end Sys2Proof.Machine
end

