-- ==== Sys2Proof/Laws/Ops.lean ====
section
/-! SUPPORT. What each shared operation can do, said once: raising, responding, the PV check, the
shared forms of the meanings, issuing a command, and the lines of the exchange. -/

namespace Sys2Proof.Machine

variable {s t : State}

/-- Raising an error answers a next state in which only the selected instance changed. -/
theorem raise_next {e : Err} : raise e s = .next t ↔ t = s.setCur (s.cur.fail e) :=
  ⟨fun h => (Host.Outcome.next.inj h).symm, fun h => by rw [h]; rfl⟩

/-- Responding answers a next state in which only the selected instance changed. -/
theorem respond_next {d : Dout} {x : Codec} : respond d x s = .next t ↔ t = s.setCur (x.ok d) :=
  ⟨fun h => (Host.Outcome.next.inj h).symm, fun h => by rw [h]; rfl⟩

/-- A command other than a constructor raises E_NO_PACKET while PV = 0 (R71). -/
theorem withPacket_noPacket (body : Codec → Result) (h : s.cur.pv = false) :
    withPacket s body = raise .noPacket s := by rw [withPacket, if_pos h]

/-- A command performs its rule on a packet (R71). -/
theorem withPacket_ready (body : Codec → Result) (h : s.cur.Ready) :
    withPacket s body = body s.cur := by
  rw [withPacket, if_neg (by simp [h.1]), if_neg (Nat.not_lt.2 h.2)]

/-- Everything the PV check can do. -/
theorem withPacket_cases (body : Codec → Result) :
    (s.cur.pv = false ∧ withPacket s body = raise .noPacket s) ∨
    (s.cur.pv = true ∧ s.cur.len < bufMin ∧ withPacket s body = .fault .shortPacket) ∨
    (s.cur.Ready ∧ withPacket s body = body s.cur) := by
  by_cases h : s.cur.pv = false
  · exact .inl ⟨h, withPacket_noPacket body h⟩
  · have h' : s.cur.pv = true := by simpa using h
    by_cases hl : s.cur.len < bufMin
    · exact .inr (.inl ⟨h', hl, by rw [withPacket, if_neg h, if_pos hl]⟩)
    · exact .inr (.inr ⟨⟨h', Nat.le_of_not_lt hl⟩,
        withPacket_ready body ⟨h', Nat.le_of_not_lt hl⟩⟩)

/-- What a command under the PV check can answer next: E_NO_PACKET, or what its rule answers. -/
theorem withPacket_next {body : Codec → Result} (h : withPacket s body = .next t) :
    (s.cur.pv = false ∧ t = s.setCur (s.cur.fail .noPacket)) ∨
    (s.cur.Ready ∧ body s.cur = .next t) := by
  rcases withPacket_cases (s := s) body with ⟨hp, e⟩ | ⟨_, _, e⟩ | ⟨hr, e⟩
  · exact .inl ⟨hp, raise_next.1 (e ▸ h)⟩
  · rw [e] at h; cases h
  · exact .inr ⟨hr, e ▸ h⟩

theorem getSubField_ready (f : SubField) (kind : BitVec f.width → Dout) (h : s.cur.Ready) :
    getSubField f kind s = .next (s.setCur (s.cur.ok (kind (extract (s.cur.buf.read 0) f)))) :=
  withPacket_ready _ h

theorem setSubField_ready (f : SubField) (v : BitVec f.width) (h : s.cur.Ready) :
    setSubField f v s = .next (s.setCur
      ((s.cur.withBuf (s.cur.buf.write 0 (insert (s.cur.buf.read 0) f v))).ok .nothing)) :=
  withPacket_ready _ h

theorem execSetMode_ready (v : BitVec 3) (h : s.cur.Ready) :
    execSetMode v s = if modeAllowed s.cfg v then
      .next (s.setCur
        ((s.cur.withBuf (s.cur.buf.write 0 (insert (s.cur.buf.read 0) .mode v))).ok .nothing))
      else raise .modeDomain s := by
  rw [execSetMode, withPacket_ready _ h, setSubField_ready _ _ h]

theorem getByte_ready (off : Nat) (h : s.cur.Ready) :
    getByte off s = .next (s.setCur (s.cur.ok (.b8 (s.cur.buf.read off)))) := withPacket_ready _ h

theorem getWord_ready (off : Nat) (h : s.cur.Ready) :
    getWord off s = .next (s.setCur (s.cur.ok (.b32 (s.cur.buf.read32 off)))) := withPacket_ready _ h

theorem getTimestamp_ready (f : WireTs) (h : s.cur.Ready) :
    getTimestamp f s =
      .next (s.setCur (s.cur.ok (.otime (decodeTime s.cfg.tps (s.cur.rawTs f))))) :=
  withPacket_ready _ h

theorem setTimestamp_ready (f : WireTs) {o : Option Time} {r : BitVec 64} (h : s.cur.Ready)
    (hr : encodeTime s.cfg o = some r) :
    setTimestamp f o s =
      .next (s.setCur ((s.cur.withBuf (s.cur.buf.write64 f.offset r)).ok .nothing)) := by
  rw [setTimestamp, withPacket_ready _ h]
  simp only [hr, respond]

theorem setTimestamp_range (f : WireTs) {o : Option Time} (h : s.cur.Ready)
    (hr : encodeTime s.cfg o = none) : setTimestamp f o s = raise .tsRange s := by
  rw [setTimestamp, withPacket_ready _ h]
  simp only [hr]

theorem metric_absent {formula : FourTimes → Option Duration} (h : s.cur.Ready)
    (hr : required s.cfg s.cur = none) : metric formula s = raise .state s := by
  rw [metric, withPacket_ready _ h]
  simp only [hr]

theorem metric_overflow {formula : FourTimes → Option Duration} {f : FourTimes} (h : s.cur.Ready)
    (hr : required s.cfg s.cur = some f) (hf : formula f = none) :
    metric formula s = raise .overflow s := by
  rw [metric, withPacket_ready _ h]
  simp only [hr, hf]

theorem metric_result {formula : FourTimes → Option Duration} {f : FourTimes} {d : Duration}
    (h : s.cur.Ready) (hr : required s.cfg s.cur = some f) (hf : formula f = some d) :
    metric formula s = .next (s.setCur (s.cur.ok (.dur d))) := by
  rw [metric, withPacket_ready _ h]
  simp only [hr, hf, respond]

/-- Everything a metric command can answer next. -/
theorem metric_next {formula : FourTimes → Option Duration} (h : metric formula s = .next t) :
    (∃ e ∈ [Err.noPacket, .state, .overflow], t = s.setCur (s.cur.fail e)) ∨
    (∃ f d, s.cur.Ready ∧ required s.cfg s.cur = some f ∧ formula f = some d ∧
      t = s.setCur (s.cur.ok (.dur d))) := by
  rcases withPacket_next h with ⟨_, h⟩ | ⟨hr, h⟩
  · exact .inl ⟨_, by simp, h⟩
  · cases hq : required s.cfg s.cur with
    | none => simp only [hq] at h; exact .inl ⟨_, by simp, raise_next.1 h⟩
    | some f =>
      cases hf : formula f with
      | none => simp only [hq, hf] at h; exact .inl ⟨_, by simp, raise_next.1 h⟩
      | some d => simp only [hq, hf] at h; exact .inr ⟨f, d, hr, rfl, hf, respond_next.1 h⟩

/-- Everything the setter of a wire timestamp can answer next. -/
theorem setTimestamp_next {f : WireTs} {o : Option Time} (h : setTimestamp f o s = .next t) :
    (∃ e ∈ [Err.noPacket, .tsRange], t = s.setCur (s.cur.fail e)) ∨
    (∃ r, s.cur.Ready ∧ encodeTime s.cfg o = some r ∧
      t = s.setCur ((s.cur.withBuf (s.cur.buf.write64 f.offset r)).ok .nothing)) := by
  rcases withPacket_next h with ⟨_, h⟩ | ⟨hr, h⟩
  · exact .inl ⟨_, by simp, h⟩
  · cases ho : encodeTime s.cfg o with
    | none => simp only [ho] at h; exact .inl ⟨_, by simp, raise_next.1 h⟩
    | some r => simp only [ho] at h; exact .inr ⟨r, hr, rfl, respond_next.1 h⟩

/-- Everything a command that only reads can answer next. -/
theorem withPacket_respond_next {d : Codec → Dout} {x : Codec → Codec}
    (h : (withPacket s fun y => respond (d y) (x y) s) = .next t) :
    t = s.setCur (s.cur.fail .noPacket) ∨
    (s.cur.Ready ∧ t = s.setCur ((x s.cur).ok (d s.cur))) := by
  rcases withPacket_next h with ⟨_, h⟩ | ⟨hr, h⟩
  · exact .inl h
  · exact .inr ⟨hr, respond_next.1 h⟩

theorem getSubField_next {f : SubField} {kind : BitVec f.width → Dout}
    (h : getSubField f kind s = .next t) :
    t = s.setCur (s.cur.fail .noPacket) ∨
    (s.cur.Ready ∧ t = s.setCur (s.cur.ok (kind (extract (s.cur.buf.read 0) f)))) :=
  withPacket_respond_next (x := id) h

theorem setSubField_next {f : SubField} {v : BitVec f.width} (h : setSubField f v s = .next t) :
    t = s.setCur (s.cur.fail .noPacket) ∨
    (s.cur.Ready ∧ t = s.setCur
      ((s.cur.withBuf (s.cur.buf.write 0 (insert (s.cur.buf.read 0) f v))).ok .nothing)) :=
  withPacket_respond_next (d := fun _ => .nothing)
    (x := fun y => y.withBuf (y.buf.write 0 (insert (y.buf.read 0) f v))) h

theorem execSetMode_next {v : BitVec 3} (h : execSetMode v s = .next t) :
    (∃ e ∈ [Err.noPacket, .modeDomain], t = s.setCur (s.cur.fail e)) ∨
    (s.cur.Ready ∧ modeAllowed s.cfg v = true ∧ t = s.setCur
      ((s.cur.withBuf (s.cur.buf.write 0 (insert (s.cur.buf.read 0) .mode v))).ok .nothing)) := by
  rcases withPacket_next h with ⟨_, h⟩ | ⟨hr, h⟩
  · exact .inl ⟨_, by simp, h⟩
  · by_cases hm : modeAllowed s.cfg v = true
    · rw [if_pos hm] at h
      rcases setSubField_next h with h | ⟨_, h⟩
      exacts [.inl ⟨_, by simp, h⟩, .inr ⟨hr, hm, h⟩]
    · rw [if_neg hm] at h
      exact .inl ⟨_, by simp, raise_next.1 h⟩

theorem getByte_next {off : Nat} (h : getByte off s = .next t) :
    t = s.setCur (s.cur.fail .noPacket) ∨
    (s.cur.Ready ∧ t = s.setCur (s.cur.ok (.b8 (s.cur.buf.read off)))) :=
  withPacket_respond_next (d := fun y => .b8 (y.buf.read off)) (x := id) h

theorem getWord_next {off : Nat} (h : getWord off s = .next t) :
    t = s.setCur (s.cur.fail .noPacket) ∨
    (s.cur.Ready ∧ t = s.setCur (s.cur.ok (.b32 (s.cur.buf.read32 off)))) :=
  withPacket_respond_next (d := fun y => .b32 (y.buf.read32 off)) (x := id) h

theorem getTimestamp_next {f : WireTs} (h : getTimestamp f s = .next t) :
    t = s.setCur (s.cur.fail .noPacket) ∨
    (s.cur.Ready ∧ t = s.setCur (s.cur.ok (.otime (decodeTime s.cfg.tps (s.cur.rawTs f))))) :=
  withPacket_respond_next (d := fun y => .otime (decodeTime s.cfg.tps (y.rawTs f))) (x := id) h

theorem execGetDstTs_next (h : execGetDstTs s = .next t) :
    t = s.setCur (s.cur.fail .noPacket) ∨
    (s.cur.Ready ∧ t = s.setCur (s.cur.ok (.otime s.cur.destination))) :=
  withPacket_respond_next (d := fun y => .otime y.destination) (x := id) h

theorem execSetDstTs_next {o : Option Time} (h : execSetDstTs o s = .next t) :
    t = s.setCur (s.cur.fail .noPacket) ∨
    (s.cur.Ready ∧ t = s.setCur ((s.cur.setDestination o).ok .nothing)) :=
  withPacket_respond_next (d := fun _ => .nothing) (x := fun y => y.setDestination o) h

theorem execReadBuf_next (h : execReadBuf s = .next t) :
    t = s.setCur (s.cur.fail .noPacket) ∨
    (s.cur.Ready ∧ t = s.setCur (s.cur.ok (.bytes s.cur.bytes))) :=
  withPacket_respond_next (d := fun y => .bytes y.bytes) (x := id) h

theorem execLoad_next {b : List Byte} (h : execLoad b s = .next t) :
    t = s.setCur (s.cur.fail .size) ∨
    (lengthAccepted s.cfg b.length = true ∧ t = s.setCur ((s.cur.loaded b).ok .nothing)) := by
  unfold execLoad at h
  by_cases hl : lengthAccepted s.cfg b.length = true
  · rw [if_pos hl] at h; exact .inr ⟨hl, respond_next.1 h⟩
  · rw [if_neg hl] at h; exact .inl (raise_next.1 h)

theorem exec_getLi : exec .getLi s = getSubField .li Dout.b2 s := rfl
theorem exec_setLi (v : BitVec 2) : exec (.setLi v) s = setSubField .li v s := rfl
theorem exec_getVn : exec .getVn s = getSubField .vn Dout.b3 s := rfl
theorem exec_setVn (v : BitVec 3) : exec (.setVn v) s = setSubField .vn v s := rfl
theorem exec_getMode : exec .getMode s = getSubField .mode Dout.b3 s := rfl
theorem exec_setMode (v : BitVec 3) : exec (.setMode v) s = execSetMode v s := rfl
theorem exec_getStratum : exec .getStratum s = getByte 1 s := rfl
theorem exec_getPoll : exec .getPoll s = getByte 2 s := rfl
theorem exec_getPrecision : exec .getPrecision s = getByte 3 s := rfl
theorem exec_getRootDelay : exec .getRootDelay s = getWord 4 s := rfl
theorem exec_getRootDispersion : exec .getRootDispersion s = getWord 8 s := rfl
theorem exec_getReferenceId : exec .getReferenceId s = getWord 12 s := rfl
theorem exec_getRefTs : exec .getRefTs s = getTimestamp .ref s := rfl
theorem exec_setRefTs (o : Option Time) : exec (.setRefTs o) s = setTimestamp .ref o s := rfl
theorem exec_getOrgTs : exec .getOrgTs s = getTimestamp .org s := rfl
theorem exec_setOrgTs (o : Option Time) : exec (.setOrgTs o) s = setTimestamp .org o s := rfl
theorem exec_getRcvTs : exec .getRcvTs s = getTimestamp .rcv s := rfl
theorem exec_setRcvTs (o : Option Time) : exec (.setRcvTs o) s = setTimestamp .rcv o s := rfl
theorem exec_getXmtTs : exec .getXmtTs s = getTimestamp .xmt s := rfl
theorem exec_setXmtTs (o : Option Time) : exec (.setXmtTs o) s = setTimestamp .xmt o s := rfl
theorem exec_getDstTs : exec .getDstTs s = execGetDstTs s := rfl
theorem exec_setDstTs (o : Option Time) : exec (.setDstTs o) s = execSetDstTs o s := rfl
theorem exec_getRtt : exec .getRtt s = metric roundTrip s := rfl
theorem exec_getOffset : exec .getOffset s = metric (correctionOffset s.cfg) s := rfl
theorem exec_initDefault : exec .initDefault s = execInitDefault s := rfl
theorem exec_load (b : List Byte) : exec (.load b) s = execLoad b s := rfl
theorem exec_readBuf : exec .readBuf s = execReadBuf s := rfl

theorem execGetDstTs_ready (h : s.cur.Ready) :
    execGetDstTs s = .next (s.setCur (s.cur.ok (.otime s.cur.destination))) :=
  withPacket_ready (fun x => respond (.otime x.destination) x s) h

theorem execSetDstTs_ready (o : Option Time) (h : s.cur.Ready) :
    execSetDstTs o s = .next (s.setCur ((s.cur.setDestination o).ok .nothing)) :=
  withPacket_ready (fun x => respond .nothing (x.setDestination o) s) h

theorem execReadBuf_ready (h : s.cur.Ready) :
    execReadBuf s = .next (s.setCur (s.cur.ok (.bytes s.cur.bytes))) :=
  withPacket_ready (fun x => respond (.bytes x.bytes) x s) h

theorem lengthAccepted_iff (g : Config) (n : Nat) :
    lengthAccepted g n = true ↔ 48 ≤ n ∧ n ≤ g.bufMax := by
  rw [lengthAccepted, Bool.and_eq_true, decide_eq_true_iff, decide_eq_true_iff, bufMin]

theorem execLoad_accepted {b : List Byte} (h : lengthAccepted s.cfg b.length = true) :
    execLoad b s = .next (s.setCur ((s.cur.loaded b).ok .nothing)) := by
  rw [execLoad, if_pos h]; rfl

theorem execLoad_refused {b : List Byte} (h : lengthAccepted s.cfg b.length = false) :
    execLoad b s = raise .size s := by rw [execLoad, if_neg (by simp [h])]

/-- Every command but the two constructors performs its rule under the PV check (R71). -/
theorem exec_withPacket {i : Instr} (h : i.constructs = false) (s : State) :
    ∃ body, exec i s = withPacket s body := by
  cases i
  case initDefault => cases h
  case load b => cases h
  all_goals
    simp only [exec, execGetLi, execSetLi, execGetVn, execSetVn, execGetMode, execSetMode,
      execGetStratum, execGetPoll, execGetPrecision, execGetRootDelay, execGetRootDispersion,
      execGetReferenceId, execGetRefTs, execSetRefTs, execGetOrgTs, execSetOrgTs, execGetRcvTs,
      execSetRcvTs, execGetXmtTs, execSetXmtTs, execGetDstTs, execSetDstTs, execGetRtt,
      execGetOffset, execReadBuf, getSubField, getByte, getWord, getTimestamp, setTimestamp, metric]
  case setLi v | setVn v => simp only [setSubField]; exact ⟨_, rfl⟩
  all_goals exact ⟨_, rfl⟩

/-- Everything a decoded command can answer next: an error, which keeps the packet; or OK, with an
instance that keeps ERRLOG. Nothing but the selected instance changes. -/
theorem exec_next {i : Instr} (h : exec i s = .next t) :
    (∃ e, t = s.setCur (s.cur.fail e)) ∨
    (∃ (x : Codec) (d : Dout), t = s.setCur (x.ok d) ∧ x.errlog = s.cur.errlog) := by
  cases i with
  | getLi | getVn | getMode =>
    exact (getSubField_next h).imp (fun h => ⟨_, h⟩) fun h => ⟨_, _, h.2, by rfl⟩
  | setLi v | setVn v =>
    exact (setSubField_next h).imp (fun h => ⟨_, h⟩) fun h => ⟨_, _, h.2, by rfl⟩
  | setMode v =>
    exact (execSetMode_next h).imp (fun ⟨e, _, h⟩ => ⟨e, h⟩) fun h => ⟨_, _, h.2.2, by rfl⟩
  | getStratum | getPoll | getPrecision =>
    exact (getByte_next h).imp (fun h => ⟨_, h⟩) fun h => ⟨_, _, h.2, by rfl⟩
  | getRootDelay | getRootDispersion | getReferenceId =>
    exact (getWord_next h).imp (fun h => ⟨_, h⟩) fun h => ⟨_, _, h.2, by rfl⟩
  | getRefTs | getOrgTs | getRcvTs | getXmtTs =>
    exact (getTimestamp_next h).imp (fun h => ⟨_, h⟩) fun h => ⟨_, _, h.2, by rfl⟩
  | setRefTs o | setOrgTs o | setRcvTs o | setXmtTs o =>
    exact (setTimestamp_next h).imp (fun ⟨e, _, h⟩ => ⟨e, h⟩) fun ⟨_, _, _, h⟩ => ⟨_, _, h, by rfl⟩
  | getDstTs => exact (execGetDstTs_next h).imp (fun h => ⟨_, h⟩) fun h => ⟨_, _, h.2, by rfl⟩
  | setDstTs o =>
    exact (execSetDstTs_next h).imp (fun h => ⟨_, h⟩)
      fun h => ⟨_, _, h.2, Codec.setDestination_errlog _ _⟩
  | getRtt | getOffset =>
    exact (metric_next h).imp (fun ⟨e, _, h⟩ => ⟨e, h⟩) fun ⟨_, _, _, _, _, h⟩ => ⟨_, _, h, by rfl⟩
  | initDefault => exact .inr ⟨_, _, respond_next.1 h, rfl⟩
  | load b => exact (execLoad_next h).imp (fun h => ⟨_, h⟩) fun h => ⟨_, _, h.2, by rfl⟩
  | readBuf => exact (execReadBuf_next h).imp (fun h => ⟨_, h⟩) fun h => ⟨_, _, h.2, by rfl⟩

/-- A decoded command changes nothing but the selected instance. -/
theorem exec_next_setCur {i : Instr} (h : exec i s = .next t) : ∃ x, t = s.setCur x := by
  rcases exec_next h with ⟨e, h⟩ | ⟨x, d, h, _⟩
  exacts [⟨_, h⟩, ⟨_, h⟩]

/-- A command issued to the selected instance changes nothing but that instance. -/
theorem runCommand_next {c : Command} (h : runCommand c s = .next t) : ∃ x, t = s.setCur x := by
  unfold runCommand at h
  cases hd : decode c with
  | error e => rw [hd] at h; exact ⟨_, raise_next.1 h⟩
  | ok i => rw [hd] at h; exact exec_next_setCur h

/-- Everything a codec command of the exchange can answer next: it ended with an error, which ends
the exchange, or it ended OK with a result, which its continuation takes. -/
theorem call_next {x : Exchange} {k : Nat} {c : Command} {cont : Dout → State → Result}
    (h : call x k c cont s = .next t) :
    ∃ u, issue k c s = .next u ∧
      (((u.codec k).status ≠ 0 ∧ t = endError x (u.codec k).status u) ∨
       ((u.codec k).status = 0 ∧ ∃ d, (u.codec k).dout = some d ∧ cont d u = .next t)) := by
  unfold call at h
  cases hi : issue k c s with
  | fault r => rw [hi] at h; cases h
  | refused r => rw [hi] at h; cases h
  | next u =>
    simp only [hi] at h
    refine ⟨u, rfl, ?_⟩
    by_cases hs : (u.codec k).status = 0
    · cases hd : (u.codec k).dout with
      | none => simp [hs, hd] at h
      | some d => exact .inr ⟨hs, d, rfl, by simpa [hs, hd] using h⟩
    · rw [if_pos hs] at h
      exact .inl ⟨hs, (Host.Outcome.next.inj h).symm⟩

/-- Beginning an exchange either refuses a released Client or sets the exchange going. -/
theorem beginExchange_cases (x : Exchange) (s : State) :
    ((s.client x.client).released = true ∧
      beginExchange x s = reject x.client HostErr.released.code s) ∨
    ((s.client x.client).released = false ∧ beginExchange x s = { s with run := some x }) := by
  unfold beginExchange
  cases h : (s.client x.client).released <;> simp

/-- Setting the timeout either raises X_RANGE or takes the value (R193). -/
theorem setTimeout_cases (c : Nat) (d : Duration) (s : State) :
    (belowMinTimeout s.cfg d = true ∧ setTimeout c d s = reject c HostErr.range.code s) ∨
    (belowMinTimeout s.cfg d = false ∧ setTimeout c d s =
      s.putClient c { s.client c with timeout := d, status := 0, value := some .nothing }) := by
  unfold setTimeout
  cases h : belowMinTimeout s.cfg d <;> simp

end Sys2Proof.Machine
end

