-- ==== Sys2Proof/Laws/Fields.lean ====
section
/-! SUPPORT. The fields of the command word and of byte 0, read as bit ranges. -/

namespace Sys2Proof

/-- The bits of a command word made of its fields (R63). -/
theorem getLsbD_wordOf (opc : BitVec 8) (imm : BitVec 3) (n : Nat) :
    (wordOf opc imm).getLsbD n =
      if n < 8 then (0#5 ++ imm : BitVec 8).getLsbD n else opc.getLsbD (n - 8) :=
  BitVec.getLsbD_append

theorem getLsbD_lowByte (imm : BitVec 3) (n : Nat) :
    (0#5 ++ imm : BitVec 8).getLsbD n = imm.getLsbD n := by
  refine (BitVec.getLsbD_append (x := 0#5) (y := imm)).trans ?_
  by_cases h : n < 3
  · rw [if_pos h]
  · rw [if_neg h, BitVec.getLsbD_of_ge imm n (by omega)]; simp

@[simp] theorem opcOf_wordOf (opc : BitVec 8) (imm : BitVec 3) : opcOf (wordOf opc imm) = opc := by
  refine BitVec.eq_of_getLsbD_eq fun i hi => ?_
  rw [opcOf, BitVec.getLsbD_extractLsb', getLsbD_wordOf, if_neg (by omega), Nat.add_sub_cancel_left]
  simp [hi]

@[simp] theorem rsvOf_wordOf (opc : BitVec 8) (imm : BitVec 3) : rsvOf (wordOf opc imm) = 0 := by
  refine BitVec.eq_of_getLsbD_eq fun i hi => ?_
  rw [rsvOf, BitVec.getLsbD_extractLsb', getLsbD_wordOf, if_pos (by omega), getLsbD_lowByte,
    BitVec.getLsbD_of_ge imm (3 + i) (by omega)]
  simp

@[simp] theorem immOf_wordOf (opc : BitVec 8) (imm : BitVec 3) : immOf (wordOf opc imm) = imm := by
  refine BitVec.eq_of_getLsbD_eq fun i hi => ?_
  rw [immOf, BitVec.getLsbD_extractLsb', getLsbD_wordOf, if_pos (by omega), getLsbD_lowByte]
  simp [hi]

/-- A command word is its three fields (R63). -/
theorem word_eq_fields (w : CmdWord) : w = opcOf w ++ (rsvOf w ++ immOf w) := by
  have h : (opcOf w ++ (rsvOf w ++ immOf w) : BitVec 16)
      = w.extractLsb' 8 8 ++ (w.extractLsb' 3 5 ++ w.extractLsb' 0 3) := rfl
  rw [h, BitVec.extractLsb'_append_extractLsb'_eq_extractLsb' (by rfl),
    BitVec.extractLsb'_append_extractLsb'_eq_extractLsb' (by rfl)]
  exact BitVec.extractLsb'_eq_self.symm

/-- Decoding a word with RSV zero. -/
theorem decode_wordOf (opc : BitVec 8) (imm : BitVec 3) (din : Din) {op : Opcode}
    (h : opcode? opc = some op) (hi : op.usesImm = true ∨ imm = 0)
    (hl : op ≠ .setLi ∨ imm.getLsbD 2 = false) :
    decode ⟨wordOf opc imm, din⟩ =
      match op.build imm din with
      | none => .error .operandKind
      | some i => .ok i := by
  have h1 : ¬ (op.usesImm = false ∧ imm ≠ 0) := by
    rintro ⟨a, b⟩
    rcases hi with hi | hi
    · rw [a] at hi; cases hi
    · exact b hi
  have h2 : ¬ (op = .setLi ∧ imm.getLsbD 2 = true) := by
    rintro ⟨a, b⟩
    rcases hl with hl | hl
    · exact hl a
    · rw [hl] at b; cases b
  unfold decode
  cases hb : op.build imm din <;>
    simp only [opcOf_wordOf, rsvOf_wordOf, immOf_wordOf, h, hb, ne_eq, not_true_eq_false, if_false,
      if_neg h1, if_neg h2]

namespace Machine

theorem extract_li : ∀ b : Byte, extract b .li = b.extractLsb' 6 2 := by decide

theorem extract_vn : ∀ b : Byte, extract b .vn = b.extractLsb' 3 3 := by decide

theorem extract_mode : ∀ b : Byte, extract b .mode = b.extractLsb' 0 3 := by decide

theorem insert_li : ∀ (b : Byte) (v : BitVec 2), insert b .li v = v ++ b.extractLsb' 0 6 := by decide

theorem insert_vn : ∀ (b : Byte) (v : BitVec 3),
    insert b .vn v = b.extractLsb' 6 2 ++ v ++ b.extractLsb' 0 3 := by decide

theorem insert_mode : ∀ (b : Byte) (v : BitVec 3), insert b .mode v = b.extractLsb' 3 5 ++ v := by
  decide

/-- An offset outside a wire timestamp's field (R148). -/
theorem WireTs.covers_eq_false (f : WireTs) (a : Nat) :
    f.covers a = false ↔ a < f.offset ∨ f.offset + 8 ≤ a := by
  rw [WireTs.covers, Bool.and_eq_false_iff, decide_eq_false_iff_not, decide_eq_false_iff_not,
    Nat.not_le, Nat.not_lt]

/-- SET_MODE stores a value when it is not strict or the value is in the domain (R108). -/
theorem modeAllowed_iff (g : Config) (v : BitVec 3) :
    modeAllowed g v = true ↔ g.modeStrict = false ∨ v = 3 ∨ v = 4 := by
  simp [modeAllowed, or_assoc]

/-- Eight bytes put together as two words or one after another. -/
theorem append_eight (a b c d e f g h : Byte) :
    (a ++ b ++ c ++ d ++ (e ++ f ++ g ++ h) : BitVec (8 + 8 + 8 + 8 + (8 + 8 + 8 + 8)))
      = (a ++ b ++ c ++ d ++ e ++ f ++ g ++ h : BitVec (8 + 8 + 8 + 8 + 8 + 8 + 8 + 8)) := by
  refine BitVec.eq_of_toNat_eq ?_
  simp only [BitVec.toNat_append, Nat.shiftLeft_or_distrib, ← Nat.shiftLeft_add, Nat.or_assoc]

/-- The two ways to put eight bytes together agree (R41). -/
theorem Codec.rawTs_eq_eightBytes (x : Codec) (f : WireTs) : x.rawTs f = x.eightBytes f.offset := by
  exact append_eight (x.buf.read f.offset) _ _ _ _ _ _ _

end Machine

end Sys2Proof
end

