-- ==== Sys2Proof/Laws/Numbers.lean ====
section
/-! SUPPORT. What the converter and the range checks say, as facts on integers. -/

namespace Sys2Proof.Machine

/-- Rounding gives an integer within one half of the rational, whatever the tie rule (R142). -/
theorem roundNearest_near (rule : TieRule) (num : Int) {den : Nat} (h : 0 < den) :
    2 * (den * roundNearest rule num den - num) ≤ den ∧
      -(den : Int) ≤ 2 * (den * roundNearest rule num den - num) := by
  have h1 := Int.mul_ediv_add_emod num den
  have h2 := Int.emod_nonneg num (b := den) (by omega)
  have h3 := Int.emod_lt_of_pos num (b := den) (by omega)
  have pick : pickTie rule (num / den) = num / den ∨ pickTie rule (num / den) = num / den + 1 := by
    cases rule <;> simp only [pickTie] <;> (try split) <;> simp
  unfold roundNearest
  split
  · constructor <;> linarith
  · split
    · rcases pick with e | e <;> rw [e] <;> constructor <;> linarith
    · constructor <;> linarith

/-- DECODE of zeros is absent (R141). -/
@[simp] theorem decodeTime_zero (tps : Nat) : decodeTime tps 0#64 = none := rfl

/-- DECODE of any other value is the floor (R141). -/
theorem decodeTime_ne_zero (tps : Nat) {r : BitVec 64} (h : r ≠ 0) :
    decodeTime tps r = some (BitVec.ofNat 64 (r.toNat * tps / 2 ^ 32)) := if_neg h

/-- ENCODE of absent is zeros (R142). -/
@[simp] theorem encodeTime_absent (g : Config) : encodeTime g none = some 0 := rfl

/-- When ENCODE raises nothing, and what it gives (R142). -/
theorem encodeTime_some_iff (g : Config) (t : Time) (r : BitVec 64) :
    encodeTime g (some t) = some r ↔ 0 ≤ encodedTicks g t ∧ encodedTicks g t ≤ 2 ^ 64 - 1 ∧
      r = BitVec.ofInt 64 (encodedTicks g t) := by
  simp only [encodeTime]
  by_cases h : encodedTicks g t < 0 ∨ encodedTicks g t > 2 ^ 64 - 1
  · rw [if_pos h]
    exact ⟨fun h => (by cases h), fun h' => by omega⟩
  · rw [if_neg h]
    exact ⟨fun e => ⟨by omega, by omega, (Option.some.inj e).symm⟩, fun e => by rw [e.2.2]⟩

/-- When ENCODE raises E_TS_RANGE (R142). -/
theorem encodeTime_none_iff (g : Config) (t : Time) :
    encodeTime g (some t) = none ↔ encodedTicks g t < 0 ∨ 2 ^ 64 - 1 < encodedTicks g t := by
  simp only [encodeTime]
  by_cases h : encodedTicks g t < 0 ∨ encodedTicks g t > 2 ^ 64 - 1
  · rw [if_pos h]
    exact ⟨fun _ => h, fun _ => rfl⟩
  · rw [if_neg h]
    exact ⟨fun e => (by cases e), fun e => absurd e h⟩

/-- The number of a 64-bit value made from a number in its unsigned range. -/
theorem toNat_ofInt_of_range {n : Int} (h : 0 ≤ n) (h' : n ≤ 2 ^ 64 - 1) :
    ((BitVec.ofInt 64 n).toNat : Int) = n := by rw [BitVec.toNat_ofInt]; omega

theorem fitsInt64_iff (n : Int) : fitsInt64 n = true ↔ InInt64 n := by
  rw [fitsInt64, Bool.and_eq_true, decide_eq_true_iff, decide_eq_true_iff, InInt64]

/-- The number of a duration made from a number in Int64. -/
theorem toInt_ofInt_of_inInt64 {n : Int} (h : InInt64 n) : (BitVec.ofInt 64 n).toInt = n := by
  unfold InInt64 at h
  rw [BitVec.toInt_ofInt, Int.bmod_eq_of_le] <;> omega

/-- REQUIRED answers four times exactly when all four are present (R170). -/
theorem required_eq_some {g : Config} {x : Codec} {t0 t1 t2 t3 : Time}
    (h0 : decodeTime g.tps (x.rawTs .org) = some t0) (h1 : decodeTime g.tps (x.rawTs .rcv) = some t1)
    (h2 : decodeTime g.tps (x.rawTs .xmt) = some t2) (h3 : x.destination = some t3) :
    required g x = some ⟨t0.toInt, t1.toInt, t2.toInt, t3.toInt⟩ := by
  simp only [required, h0, h1, h2, h3]

/-- REQUIRED answers none where one of the four is absent (R170). -/
theorem required_eq_none {g : Config} {x : Codec}
    (h : x.rawTs .org = 0 ∨ x.rawTs .rcv = 0 ∨ x.rawTs .xmt = 0 ∨ x.dv = false) :
    required g x = none := by
  unfold required
  rcases h with h | h | h | h
  · simp [h]
  · simp [h]
  · simp [h]
  · simp [Codec.destination, h]

end Sys2Proof.Machine
end

