-- ==== Sys2Proof/Laws/Exchange.lean ====
section
/-! SUPPORT. How a step unfolds: an exchange in progress, the next host operation, and one codec
command of the exchange. -/

namespace Sys2Proof.Machine

variable {s : State}

/-- With an exchange in progress, a step runs its next line. -/
theorem step_of_run {x : Exchange} (h : s.run = some x) : step s = advance x s := by
  rw [step, stepOnce, h]

/-- With no exchange in progress, a step takes the next host operation. -/
theorem step_of_pending {op : HostOp} {rest : List HostOp} (h : s.run = none)
    (hp : s.pending = op :: rest) : step s = perform op { s with pending := rest } := by
  rw [step, stepOnce, h, hp]

/-- A run begins with a step. -/
theorem core_run_succ {t : State} (k : Nat) (h : step s = .next t) :
    Sys2Proof.core.run (k + 1) s = Sys2Proof.core.run k t := by
  have h' : Sys2Proof.core.step s = .next t := h
  simp only [Host.Core.run]
  rw [h']

/-- A codec command of the exchange that ends OK hands its result to its continuation. -/
theorem call_ok {x : Exchange} {k : Nat} {c : Command} {i : Instr} {cont : Dout → State → Result}
    {y : Codec} {d : Dout} (hd : decode c = .ok i)
    (he : exec i (s.select k) = .next ((s.select k).setCur (y.ok d))) :
    call x k c cont s = cont d ((s.select k).putCodec k (y.ok d)) := by
  have e : (s.select k).setCur (y.ok d) = (s.select k).putCodec k (y.ok d) := rfl
  simp only [call, issue, runCommand, hd]
  rw [he, e]
  simp

/-- A codec command of the exchange that raises an error ends the exchange with its code (D26). -/
theorem call_error {x : Exchange} {k : Nat} {c : Command} {i : Instr} {cont : Dout → State → Result}
    {e : Err} (hd : decode c = .ok i) (he : exec i (s.select k) = raise e (s.select k)) :
    call x k c cont s = .next (endError x e.code ((s.select k).putCodec k ((s.codec k).fail e))) := by
  have h : (s.select k).setCur ((s.select k).cur.fail e)
      = (s.select k).putCodec k ((s.codec k).fail e) := rfl
  simp only [call, issue, runCommand, hd]
  rw [he, raise, h]
  simp

end Sys2Proof.Machine
end

