-- ==== Sys2Proof/Laws/PerInstr.lean ====
section
/-! SUPPORT. What is said of each command as syntax, one lemma for each constructor: its encoding is a
legal command of the map R65. -/

namespace Sys2Proof.Laws.EncodedLegally

/-- The encoding of a command fits a row of the opcode map, with an operand of that row's kind
(R65, R66). -/
def Statement (i : Instr) : Prop := (encode i).wf = true

/-- The kind of an OTIME operand does not depend on its value. -/
theorem wf_ofTime (w : CmdWord) (o : Option Time) :
    (Command.mk w (Din.ofTime o)).wf = (Command.mk w (.otime false 0)).wf := by cases o <;> rfl

/-- The kind of a BYTES operand does not depend on its bytes. -/
theorem wf_bytes (w : CmdWord) (b : List Byte) :
    (Command.mk w (.bytes b)).wf = (Command.mk w (.bytes [])).wf := rfl

theorem getLi : Statement .getLi := rfl
theorem setLi (v : BitVec 2) : Statement (.setLi v) := by revert v; unfold Statement; decide
theorem getVn : Statement .getVn := rfl
theorem setVn (v : BitVec 3) : Statement (.setVn v) := by revert v; unfold Statement; decide
theorem getMode : Statement .getMode := rfl
theorem setMode (v : BitVec 3) : Statement (.setMode v) := by revert v; unfold Statement; decide
theorem getStratum : Statement .getStratum := rfl
theorem getPoll : Statement .getPoll := rfl
theorem getPrecision : Statement .getPrecision := rfl
theorem getRootDelay : Statement .getRootDelay := rfl
theorem getRootDispersion : Statement .getRootDispersion := rfl
theorem getReferenceId : Statement .getReferenceId := rfl
theorem getRefTs : Statement .getRefTs := rfl
theorem setRefTs (o : Option Time) : Statement (.setRefTs o) := (wf_ofTime _ o).trans rfl
theorem getOrgTs : Statement .getOrgTs := rfl
theorem setOrgTs (o : Option Time) : Statement (.setOrgTs o) := (wf_ofTime _ o).trans rfl
theorem getRcvTs : Statement .getRcvTs := rfl
theorem setRcvTs (o : Option Time) : Statement (.setRcvTs o) := (wf_ofTime _ o).trans rfl
theorem getXmtTs : Statement .getXmtTs := rfl
theorem setXmtTs (o : Option Time) : Statement (.setXmtTs o) := (wf_ofTime _ o).trans rfl
theorem getDstTs : Statement .getDstTs := rfl
theorem setDstTs (o : Option Time) : Statement (.setDstTs o) := (wf_ofTime _ o).trans rfl
theorem getRtt : Statement .getRtt := rfl
theorem getOffset : Statement .getOffset := rfl
theorem initDefault : Statement .initDefault := rfl
theorem load (b : List Byte) : Statement (.load b) := (wf_bytes _ b).trans rfl
theorem readBuf : Statement .readBuf := rfl

end Sys2Proof.Laws.EncodedLegally
end

