-- ==== Sys2Proof/Tests/Slice0.lean ====
section
/-! SUPPORT. Tests of the model: what is not well formed is refused, every constructor's word written
out bit by bit from the spec's encoding of it decodes to it, one small step for each command with the
result a vector of 95_test_vectors.md gives (named in each docstring), and, for every obligation with
hypotheses, a state and operands that meet them together. -/

namespace Sys2Proof.Tests

open Sys2Proof.Machine

/-! Helpers. -/

/-- `n` zero bytes. -/
def zeros (n : Nat) : List Byte := List.replicate n 0

/-- The machine after reset, with instance 0 replaced. -/
def withCodec (x : Codec) : State := { State.reset with codecs := [(0, x)] }

/-- An instance that holds the given bytes. -/
def holding (b : List Byte) : Codec :=
  { Codec.reset with pv := true, len := b.length, buf := Memory.ofBytes b }

/-- The machine with a packet of the given bytes in instance 0. -/
def packet (b : List Byte) : State := withCodec (holding b)

/-- The machine with a 48-byte packet that begins with a byte. -/
def base (b : Byte) : State := packet (b :: zeros 47)

/-- A 48-byte packet of zeros but for three raw timestamps, with a destination. -/
def timed (org rcv xmt : BitVec 64) (dst : Time) : State :=
  withCodec { holding (zeros 24 ++ bytesOf64 org ++ bytesOf64 rcv ++ bytesOf64 xmt) with
    dv := true, dt := dst }

/-- The same machine with SET_MODE strict. -/
def strict (s : State) : State := { s with cfg := { s.cfg with modeStrict := true } }

/-- The machine with one host operation issued. -/
def issued (op : HostOp) (s : State) : State := { s with pending := [op] }

/-- The machine with an exchange in progress. -/
def running (x : Exchange) (s : State) : State := { s with run := some x }

/-- The status and result of the last command. -/
def ports : Result → Option (BitVec 4 × Option Dout)
  | .next t => some (t.cur.status, t.cur.dout)
  | .fault _ => none
  | .refused _ => none

/-- A command whose ports show OK and a result answers it. -/
theorem answers_of_ports {i : Instr} {s : State} {d : Dout}
    (h : ports (exec i s) = some (0, some d)) : Answers i s d := by
  unfold ports at h
  split at h
  · rename_i t e
    simp only [Option.some.injEq, Prod.mk.injEq] at h
    exact ⟨t, e, h.1, h.2⟩
  · cases h
  · cases h

/-- Some bytes of BUF after a command. -/
def bytesAfter (off n : Nat) : Result → Option (List Byte)
  | .next t => some (t.cur.buf.readBytes off n)
  | .fault _ => none
  | .refused _ => none

/-- The instance after a command. -/
def codecAfter : Result → Option Codec
  | .next t => some t.cur
  | .fault _ => none
  | .refused _ => none

/-- Client 0 after a step. -/
def clientAfter : Result → Option Client
  | .next t => some (t.client 0)
  | .fault _ => none
  | .refused _ => none

/-- T0 of 95_test_vectors.md, 2024-01-01T00:00:00Z in ticks. -/
def T0 : Time := 39130560000000000

/-- The first 16 bytes of the reply Q of program P2, with zeros after them. -/
def headerQ : State :=
  packet ([0x24, 0x02, 0x06, 0xEC, 0x00, 0x00, 0x01, 0x80, 0x00, 0x00, 0x02, 0x00,
    0x47, 0x50, 0x53, 0x00] ++ zeros 32)

/-! WellFormed: each condition of R66 refuses an ill-formed command (V-ENC-2), and each constraint of R8
an ill-formed set of parameters. -/

theorem test_wf_reserved_opcode : (Command.mk 0x0700 .nothing).wf = false := by decide
theorem test_wf_reserved_opcode_top : (Command.mk 0xFF00 .nothing).wf = false := by decide
theorem test_wf_reserved_bits : (Command.mk 0x0108 .nothing).wf = false := by decide
theorem test_wf_unused_immediate : (Command.mk 0x3201 .nothing).wf = false := by decide
theorem test_wf_leap_immediate : (Command.mk 0x0204 .nothing).wf = false := by decide
theorem test_wf_operand_kind : (Command.mk 0x1100 .nothing).wf = false := by decide
theorem test_wf_operand_kind_load : (Command.mk 0x3100 (.otime true 0)).wf = false := by decide
theorem test_wf_operand_kind_plain : (Command.mk 0x0100 (.bytes [])).wf = false := by decide
theorem test_wf_legal : (Command.mk 0x3100 (.bytes [])).wf = true := by decide
theorem test_lawful_tps_low : ¬ Config.lawful { Config.default with tps := 9999999 } := by decide
theorem test_lawful_tps_high : ¬ Config.lawful { Config.default with tps := 2 ^ 31 } := by decide
theorem test_lawful_bufMax : ¬ Config.lawful { Config.default with bufMax := 47 } := by decide
theorem test_lawful_default : Config.default.lawful := by decide

/-! Decode: the word of each row of R65, written out bit by bit. -/

theorem test_decode_byteZero :
    decode ⟨0b0000000100000000, .nothing⟩ = .ok .getLi ∧
    decode ⟨0b0000001000000010, .nothing⟩ = .ok (.setLi 2) ∧
    decode ⟨0b0000001100000000, .nothing⟩ = .ok .getVn ∧
    decode ⟨0b0000010000000110, .nothing⟩ = .ok (.setVn 6) ∧
    decode ⟨0b0000010100000000, .nothing⟩ = .ok .getMode ∧
    decode ⟨0b0000011000000101, .nothing⟩ = .ok (.setMode 5) := ⟨rfl, rfl, rfl, rfl, rfl, rfl⟩

theorem test_decode_scalars :
    decode ⟨0b0000100000000000, .nothing⟩ = .ok .getStratum ∧
    decode ⟨0b0000100100000000, .nothing⟩ = .ok .getPoll ∧
    decode ⟨0b0000101000000000, .nothing⟩ = .ok .getPrecision ∧
    decode ⟨0b0000101100000000, .nothing⟩ = .ok .getRootDelay ∧
    decode ⟨0b0000110000000000, .nothing⟩ = .ok .getRootDispersion ∧
    decode ⟨0b0000110100000000, .nothing⟩ = .ok .getReferenceId := ⟨rfl, rfl, rfl, rfl, rfl, rfl⟩

theorem test_decode_timestamp_getters :
    decode ⟨0b0001000000000000, .nothing⟩ = .ok .getRefTs ∧
    decode ⟨0b0001001000000000, .nothing⟩ = .ok .getOrgTs ∧
    decode ⟨0b0001010000000000, .nothing⟩ = .ok .getRcvTs ∧
    decode ⟨0b0001011000000000, .nothing⟩ = .ok .getXmtTs ∧
    decode ⟨0b0001100000000000, .nothing⟩ = .ok .getDstTs := ⟨rfl, rfl, rfl, rfl, rfl⟩

theorem test_decode_timestamp_setters :
    decode ⟨0b0001000100000000, .otime true 7⟩ = .ok (.setRefTs (some 7)) ∧
    decode ⟨0b0001001100000000, .otime true 0⟩ = .ok (.setOrgTs (some 0)) ∧
    decode ⟨0b0001010100000000, .otime false 0⟩ = .ok (.setRcvTs none) ∧
    decode ⟨0b0001011100000000, .otime false 9⟩ = .ok (.setXmtTs none) ∧
    decode ⟨0b0001100100000000, .otime true (-1)⟩ = .ok (.setDstTs (some (-1))) :=
  ⟨rfl, rfl, rfl, rfl, rfl⟩

theorem test_decode_metrics_and_packet :
    decode ⟨0b0010000000000000, .nothing⟩ = .ok .getRtt ∧
    decode ⟨0b0010000100000000, .nothing⟩ = .ok .getOffset ∧
    decode ⟨0b0011000000000000, .nothing⟩ = .ok .initDefault ∧
    decode ⟨0b0011000100000000, .bytes [0x23, 0xFF]⟩ = .ok (.load [0x23, 0xFF]) ∧
    decode ⟨0b0011001000000000, .nothing⟩ = .ok .readBuf := ⟨rfl, rfl, rfl, rfl, rfl⟩

/-- V-ENC-2: the first condition of R66 that holds is the one named. -/
theorem test_decode_illegal :
    decode ⟨0x1A00, .nothing⟩ = .error .reservedOpcode ∧
    decode ⟨0x0480, .nothing⟩ = .error .reservedBits ∧
    decode ⟨0x0101, .nothing⟩ = .error .unusedImmediate ∧
    decode ⟨0x0207, .nothing⟩ = .error .leapImmediate ∧
    decode ⟨0x1300, .bytes []⟩ = .error .operandKind := ⟨rfl, rfl, rfl, rfl, rfl⟩

/-- The table's word of SET_VN, decoded and issued. -/
theorem test_table_word : decodeTableWord 16 0x0407 = some (.setVn 7) ∧
    decodeTableWord 16 0x1300 = some (.setOrgTs none) ∧ decodeTableWord 16 0x0E00 = none :=
  ⟨rfl, rfl, rfl⟩

/-! One step for each command. -/

/-- V-BF-2, base 0xE3. -/
theorem test_getLi : ports (exec .getLi (base 0xE3)) = some (0, some (.b2 3)) := by decide
/-- V-BF-1, base 0x23. -/
theorem test_setLi : bytesAfter 0 2 (exec (.setLi 2) (base 0x23)) = some [0xA3, 0x00] := by decide
/-- V-BF-1, base 0xFF. -/
theorem test_setLi_clears : bytesAfter 0 1 (exec (.setLi 0) (base 0xFF)) = some [0x3F] := by decide
/-- V-BF-2, base 0x1D. -/
theorem test_getVn : ports (exec .getVn (base 0x1D)) = some (0, some (.b3 3)) := by decide
/-- V-BF-1, base 0x23. -/
theorem test_setVn : bytesAfter 0 1 (exec (.setVn 6) (base 0x23)) = some [0x33] := by decide
/-- V-BF-1, base 0xFF. -/
theorem test_setVn_clears : bytesAfter 0 1 (exec (.setVn 1) (base 0xFF)) = some [0xCF] := by decide
/-- V-BF-2, base 0x1D: values outside 3 and 4 pass through. -/
theorem test_getMode : ports (exec .getMode (strict (base 0x1D))) = some (0, some (.b3 5)) := by decide
/-- V-BF-1, base 0xFF. -/
theorem test_setMode : bytesAfter 0 1 (exec (.setMode 4) (base 0xFF)) = some [0xFC] := by decide
/-- V-ERR-1, the last row. -/
theorem test_setMode_strict : ports (exec (.setMode 5) (strict (base 0x23))) = some (3, none) := by decide
/-- V-SC-1. -/
theorem test_getStratum : ports (exec .getStratum headerQ) = some (0, some (.b8 0x02)) := by decide
/-- V-SC-1. -/
theorem test_getPoll : ports (exec .getPoll headerQ) = some (0, some (.b8 0x06)) := by decide
/-- V-SC-1, and its integer view -20. -/
theorem test_getPrecision : ports (exec .getPrecision headerQ) = some (0, some (.b8 0xEC)) ∧
    exponentView 0xEC = -20 := by decide
/-- V-SC-1. -/
theorem test_getRootDelay :
    ports (exec .getRootDelay headerQ) = some (0, some (.b32 0x00000180)) := by decide
/-- V-SC-1. -/
theorem test_getRootDispersion :
    ports (exec .getRootDispersion headerQ) = some (0, some (.b32 0x00000200)) := by decide
/-- V-SC-1. -/
theorem test_getReferenceId :
    ports (exec .getReferenceId headerQ) = some (0, some (.b32 0x47505300)) := by decide

/-- A packet of zeros but for the raw timestamp at offset 16 (V-TS-2). -/
def refRaw (r : BitVec 64) : State := packet (zeros 16 ++ bytesOf64 r ++ zeros 24)

/-- V-TS-2. -/
theorem test_getRefTs : ports (exec .getRefTs (refRaw 0x0100000000000000))
    = some (0, some (.otime (some 167772160000000))) := by decide
/-- V-TS-2. -/
theorem test_getRefTs_top : ports (exec .getRefTs (refRaw 0xFFFFFFFFFFFFFFFF))
    = some (0, some (.otime (some 42949672959999999))) := by decide
/-- V-TS-1. -/
theorem test_setRefTs : bytesAfter 15 10 (exec (.setRefTs (some T0)) (base 0x23))
    = some [0x00, 0xE9, 0x3C, 0x7F, 0x00, 0x00, 0x00, 0x00, 0x00, 0x00] := by decide
/-- V-TS-3. -/
theorem test_setRefTs_range : ports (exec (.setRefTs (some 42949672960000000)) (base 0x23))
    = some (4, none) := by decide
/-- P2, step 5. -/
theorem test_getOrgTs : ports (exec .getOrgTs headerQ) = some (0, some (.otime none)) := by decide
/-- V-TS-4: one tick is lost. -/
theorem test_getOrgTs_drift : ports (exec .getOrgTs (timed 0xE93C7F00000001AD 0 0 0))
    = some (0, some (.otime (some T0))) := by decide
/-- V-TS-4. -/
theorem test_setOrgTs : bytesAfter 24 8 (exec (.setOrgTs (some (T0 + 1))) (base 0x23))
    = some [0xE9, 0x3C, 0x7F, 0x00, 0x00, 0x00, 0x01, 0xAD] := by decide
/-- V-TS-4: the epoch is written as absent. -/
theorem test_setOrgTs_epoch : bytesAfter 24 8 (exec (.setOrgTs (some 0)) (timed (-1) 0 0 0))
    = some (zeros 8) := by decide
/-- P2, step 14. -/
theorem test_getRcvTs : ports (exec .getRcvTs (timed 0 0xE93C7F000CCCCCCD 0 0))
    = some (0, some (.otime (some (T0 + 500000)))) := by decide
/-- V-TS-1. -/
theorem test_setRcvTs : bytesAfter 32 8 (exec (.setRcvTs (some (T0 + 500000))) (base 0x23))
    = some [0xE9, 0x3C, 0x7F, 0x00, 0x0C, 0xCC, 0xCC, 0xCD] := by decide
/-- P4, step 9. -/
theorem test_getXmtTs : ports (exec .getXmtTs (timed 0 0 0xFFFFFFFFFFFFFE53 0))
    = some (0, some (.otime (some 42949672959999999))) := by decide +kernel
/-- V-TS-1. -/
theorem test_setXmtTs : bytesAfter 40 8 (exec (.setXmtTs (some (T0 + 600000))) (base 0x23))
    = some [0xE9, 0x3C, 0x7F, 0x00, 0x0F, 0x5C, 0x28, 0xF6] := by decide
/-- V-TS-1, the last row. -/
theorem test_setXmtTs_absent : bytesAfter 39 9 (exec (.setXmtTs none) (timed 0 1 (-1) 0))
    = some (0x01 :: zeros 8) := by decide +kernel
/-- V-TS-5, first row. -/
theorem test_getDstTs : ports (exec .getDstTs (base 0x23)) = some (0, some (.otime none)) := by decide
/-- V-TS-5: the smallest Int64, exactly. -/
theorem test_getDstTs_exact : ports (exec .getDstTs (timed 0 0 0 (-9223372036854775808)))
    = some (0, some (.otime (some (-9223372036854775808)))) := by decide
/-- V-TS-5. -/
theorem test_setDstTs :
    ((codecAfter (exec (.setDstTs (some T0)) (base 0x23))).map fun x => (x.dv, x.dt, x.bytes))
      = some (true, T0, 0x23 :: zeros 47) := by decide
/-- V-TS-5: absent. -/
theorem test_setDstTs_absent :
    ((codecAfter (exec (.setDstTs none) (timed 0 0 0 T0))).map fun x => x.dv) = some false := by decide

/-- The four times of the scenario of V-L1-6, with a given destination. -/
def scenario (dst : Time) : State := timed 0xE93C7F0000000000 0xE93C7F000CCCCCCD 0xE93C7F000F5C28F6 dst

/-- V-L1-6, step 8. -/
theorem test_getRtt : ports (exec .getRtt (scenario (T0 + 1200000)))
    = some (0, some (.dur 1100000)) := by decide +kernel
/-- V-MT-1, the ninth row: the sum leaves Int64. -/
theorem test_getRtt_overflow :
    ports (exec .getRtt (timed 0x0000000100000000 0xE93C7F0000000000 0x0000000100000000
      9223372036854775807)) = some (5, none) := by decide
/-- V-L1-6, step 9. -/
theorem test_getOffset : ports (exec .getOffset (scenario (T0 + 1200000)))
    = some (0, some (.dur (-50000))) := by decide +kernel
/-- V-MT-1, the third row: an odd numerator is truncated toward zero. -/
theorem test_getOffset_odd : ports (exec .getOffset (scenario (T0 + 1199999)))
    = some (0, some (.dur (-49999))) := by decide +kernel
/-- V-BUF-1: from reset. -/
theorem test_initDefault :
    ((codecAfter (exec .initDefault State.reset)).map fun x => (x.pv, x.len, x.dv, x.bytes))
      = some (true, 48, false, 0x23 :: zeros 47) := by decide
/-- V-BUF-1: after a longer packet. -/
theorem test_initDefault_replaces :
    ((codecAfter (exec .initDefault (packet (zeros 67 ++ [0x14])))).map fun x => (x.len, x.bytes))
      = some (48, 0x23 :: zeros 47) := by decide
/-- V-BUF-1: the reset row of 47 bytes. -/
theorem test_load_short :
    ((codecAfter (exec (.load (zeros 47)) State.reset)).map fun x => (x.status, x.pv, x.errlog))
      = some (1, false, 1) := by decide
/-- V-BUF-1: trailing bytes are kept. -/
theorem test_load_long :
    ((codecAfter (exec (.load (zeros 67 ++ [0x14])) State.reset)).map fun x => (x.len, x.bytes))
      = some (68, zeros 67 ++ [0x14]) := by decide +kernel
/-- V-BUF-1. -/
theorem test_readBuf : ports (exec .readBuf (packet (0x24 :: zeros 46 ++ [0x01, 0x02])))
    = some (0, some (.bytes (0x24 :: zeros 46 ++ [0x01, 0x02]))) := by decide

/-! Errors, the converter, the views, the calendar and the host's operations. -/

/-- V-ERR-2: ERRLOG keeps the first error. -/
theorem test_errlog_keeps_first :
    ((codecAfter (runCommand ⟨0x0000, .nothing⟩
      (withCodec { Codec.reset with errlog := 1 }))).map fun x => (x.status, x.errlog))
      = some (6, 1) := by decide
/-- V-ERR-1: E_NO_PACKET before the operand check. -/
theorem test_no_packet_first : ports (exec (.setXmtTs (some (-1))) State.reset) = some (7, none) := by
  decide
/-- V-CV-1: t = 1 and the largest t. -/
theorem test_encode : encodeTime Config.default (some 1) = some 0x00000000000001AD ∧
    encodeTime Config.default (some 42949672959999999) = some 0xFFFFFFFFFFFFFE53 ∧
    encodeTime Config.default (some (-1)) = none := by decide
/-- V-MT-3: n = -3 and n = 3. -/
theorem test_halve : halveBy .towardZero (-3) = -1 ∧ halveBy .down (-3) = -2 ∧
    halveBy .towardZero 3 = 1 ∧ halveBy .halfEven 3 = 2 ∧ halveBy .up (-3) = -1 := by decide
/-- The names of R28 and R29. -/
theorem test_views : leapIndicator 3 = .alarm ∧ leapIndicator 1 = .lastMinute61 ∧
    associationMode 4 = some .server ∧ associationMode 5 = none ∧ stratumView 0x10 = 16 := by decide
/-- 95_test_vectors.md §0: T0 is 3,913,056,000 seconds; and the 32.32 range ends 2^32 seconds after
the epoch (2036-02-07T06:28:16Z). -/
theorem test_calendar : Instant.millis ⟨2024, 1, 1, 0, 0, 0, 0⟩ = 3913056000000 ∧
    Instant.millis ⟨2036, 2, 7, 6, 28, 16, 0⟩ = 4294967296000 ∧
    Instant.wf ⟨2023, 2, 29, 0, 0, 0, 0⟩ = false := by decide
/-- V-ENC-3: REQUEST_DEFAULT T0. -/
theorem test_assemble_request :
    assemble Config.default (.requestDefault (.cal ⟨2024, 1, 1, 0, 0, 0, 0⟩))
      = some [⟨0x3000, .nothing⟩, ⟨0x1300, .otime true T0⟩] := by decide
/-- V-ENC-3: SET_LI 4 and SET_VN 8 do not assemble, nor does SET_LI without its immediate. -/
theorem test_assemble_refuses : assemble Config.default (.command .setLi (.imm 4)) = none ∧
    assemble Config.default (.command .setVn (.imm 8)) = none ∧
    assemble Config.default (.command .setLi .nothing) = none := by decide
/-- R69: the text of a line, with `cal`, `+` and `ms` (R12: T0; 50 ms is 500,000 ticks). -/
theorem test_text_request :
    assembleText Config.default "REQUEST_DEFAULT cal(2024-01-01T00:00:00.000Z) + 50ms".toList
      = some [⟨0x3000, .nothing⟩, ⟨0x1300, .otime true (T0 + 500000)⟩] := by decide +kernel
/-- R65, R69: a program's text, one command a line, with the words of R65. -/
theorem test_text_program :
    assembleProgram Config.default
      "LOAD 00 fF\nSET_DST_TS -1\nSET_XMT_TS absent\nGET_OFFSET\nSET_VN 4".toList
      = some [⟨0x3100, .bytes [0, 255]⟩, ⟨0x1900, .otime true (BitVec.ofInt 64 (-1))⟩,
          ⟨0x1700, .otime false 0⟩, ⟨0x2100, .nothing⟩, ⟨0x0404, .nothing⟩] := by decide +kernel
/-- R69, V-ENC-3: lines that do not assemble. -/
theorem test_text_refuses : assembleText Config.default "SET_LI 4".toList = none ∧
    assembleText Config.default "GET_LI 1".toList = none ∧
    assembleText Config.default "LOAD 100".toList = none := by decide +kernel
/-- Every mnemonic of R65 names its own command. -/
theorem test_text_mnemonics : (mnemonicsScalar ++ mnemonicsOther).length = 27 ∧
    (mnemonicsScalar ++ mnemonicsOther).all (fun r => mnemonic? r.1.toList == some r.2) = true := by
  decide +kernel
/-- V-X-1: 9,999 ticks are refused, 10,000 taken. -/
theorem test_timeout :
    ((clientAfter (step (issued (.setTimeout 0 9999) State.reset))).map fun y => (y.status, y.timeout))
      = some (8, 150000000) ∧
    ((clientAfter (step (issued (.setTimeout 0 10000) State.reset))).map fun y =>
      (y.status, y.timeout)) = some (0, 10000) := by decide
/-- V-X-2: query after release. -/
theorem test_query_released :
    ((clientAfter (step (issued (.query 0 0 1 .noReply 0) { State.reset with
      clients := [(0, { Client.fresh Config.default Endpoint.unset with released := true })] }))).map
      fun y => (y.status, y.sent)) = some (10, []) := by decide
/-- V-X-2: a reply of 47 bytes ends the exchange with E_SIZE. -/
theorem test_short_reply :
    ((clientAfter (step (running ⟨0, 0, 1, .reply (zeros 47), 0, 0, false, .loadReply (zeros 47)⟩
      (base 0x23)))).map fun y => (y.status, y.value)) = some (1, none) := by decide
/-- V-X-2: query() with NOW() = -1 at the request ends with E_TS_RANGE. -/
theorem test_request_range :
    ((clientAfter (step (running ⟨0, 0, 1, .noReply, -1, 0, false, .stampRequest⟩
      (base 0x23)))).map fun y => (y.status, y.sent)) = some (4, []) := by decide

/-! Witnesses: for each obligation with hypotheses, a state and operands that meet them together, one for
each clause, at the boundary where the clause has one. -/

/-- The smallest packet meets `Ready`: 48 bytes. -/
theorem witness_ready : (base 0x23).cur.Ready ∧ (base 0x23).cur.len = bufMin := ⟨⟨rfl, by decide⟩, rfl⟩

/-- Every packet of the tests meets `Ready` (the premise of the statements on results). -/
theorem witness_ready_timed (a b c d : BitVec 64) : (timed a b c d).cur.Ready :=
  ⟨rfl, by show 48 ≤ (zeros 24 ++ bytesOf64 a ++ bytesOf64 b ++ bytesOf64 c).length; simp [zeros]⟩

theorem witness_ResetClearsPvErrlogAndDv :
    (issued (.resetCodec 0) (base 0x23)).run = none ∧
    (issued (.resetCodec 0) (base 0x23)).pending = .resetCodec 0 :: [] := ⟨rfl, rfl⟩

/-- One command that decodes and one that does not. -/
theorem witness_StepRunsDecodedCommand :
    ((issued (.command 1 ⟨0x0404, .nothing⟩) State.reset).run = none ∧
      (issued (.command 1 ⟨0x0404, .nothing⟩) State.reset).pending
        = .command 1 ⟨0x0404, .nothing⟩ :: [] ∧
      decode ⟨0x0404, .nothing⟩ = .ok (.setVn 4)) ∧
    ((issued (.command 1 ⟨0x0700, .nothing⟩) State.reset).pending
        = .command 1 ⟨0x0700, .nothing⟩ :: [] ∧
      decode ⟨0x0700, .nothing⟩ = .error .reservedOpcode) :=
  ⟨⟨rfl, rfl, rfl⟩, rfl, rfl⟩

/-- An exchange at its last line, on RSP = 0. -/
def lastLine : Exchange := ⟨0, 1, 0, .noReply, 0, 0, true, .readOffset⟩

/-- The same exchange at the line before. -/
def stampLine (wantOffset : Bool) : Exchange :=
  { lastLine with phase := .stampReply, wantOffset := wantOffset }

/-- The line before the last in both operations; one state where GET_OFFSET answers and one where it
raises E_STATE. -/
theorem witness_CorrectionOffsetIsReturned :
    (∀ w, (running (stampLine w) (base 0x23)).run = some (stampLine w) ∧
      (stampLine w).phase = .stampReply ∧ (stampLine w).wantOffset = w ∧
      ((running (stampLine w) (base 0x23)).codec (stampLine w).rsp).Ready) ∧
    ((running lastLine (scenario (T0 + 1200000))).run = some lastLine ∧
      lastLine.phase = .readOffset ∧
      Answers .getOffset ((running lastLine (scenario (T0 + 1200000))).select 0) (.dur (-50000))) ∧
    ∃ u, exec .getOffset ((running lastLine (base 0x23)).select 0) = .next u ∧ u.cur.status ≠ 0 :=
  by
  have raised : exec .getOffset ((running lastLine (base 0x23)).select 0)
      = .next (((running lastLine (base 0x23)).select 0).setCur ((base 0x23).cur.fail .state)) :=
    metric_absent (s := (running lastLine (base 0x23)).select 0)
      (formula := correctionOffset Config.default) ⟨rfl, by decide⟩ (required_eq_none (.inl (by decide)))
  exact ⟨fun w => ⟨rfl, rfl, rfl, rfl, by cases w <;> decide⟩,
    ⟨rfl, rfl, answers_of_ports (by decide +kernel)⟩, _, raised, by decide⟩

theorem witness_TableWordIsRunNext : decodeTableWord 16 0x3200 = some .readBuf := rfl

theorem witness_IdleMachineKeepsState : (base 0x23).run = none ∧ (base 0x23).pending = [] := ⟨rfl, rfl⟩

/-- A legal command with a tick count that is ignored. -/
theorem witness_DecodedCommandIsItsEncoding :
    decode ⟨0x1700, .otime false 9⟩ = .ok (.setXmtTs none) := rfl

theorem witness_LegalExactlyByTheMap :
    (Command.mk 0x3100 (.bytes [1])).wf = true ∧ (Command.mk 0x3100 .nothing).wf = false := by decide

theorem witness_SubFieldLaws : SubField.li ≠ SubField.mode := by decide

/-- Not strict, strict with the two values of the domain, and strict with its neighbours. -/
theorem witness_SetModeStoresOrRaises :
    (base 0x23).cfg.modeStrict = false ∧ (strict (base 0x23)).cur.Ready ∧
    (strict (base 0x23)).cfg.modeStrict = true ∧ (3 : BitVec 3) ≠ 4 ∧
    ((2 : BitVec 3) ≠ 3 ∧ (2 : BitVec 3) ≠ 4) ∧ ((5 : BitVec 3) ≠ 3 ∧ (5 : BitVec 3) ≠ 4) :=
  ⟨rfl, ⟨rfl, by decide⟩, rfl, by decide, by decide, by decide⟩

/-- A next state that ended OK, for a setter of each sub-field and for a getter. -/
theorem witness_ByteZeroWritesPreserveTheRest :
    (∃ t, exec (.setLi 3) (base 0x23) = .next t ∧ t.cur.status = 0) ∧
    (∃ t, exec (.setVn 7) (base 0x23) = .next t ∧ t.cur.status = 0) ∧
    (∃ t, exec (.setMode 7) (base 0x23) = .next t ∧ t.cur.status = 0) ∧
    (∃ t, exec .getVn (base 0x23) = .next t ∧ t.cur.status = 0) :=
  ⟨⟨_, rfl, by decide⟩, ⟨_, rfl, by decide⟩, ⟨_, rfl, by decide⟩, ⟨_, rfl, by decide⟩⟩

theorem witness_SetThenGetReturnsTheValue :
    (base 0x23).cur.Ready ∧ Answers .getVn (base 0x23) (.b3 4) ∧ Answers .getMode (base 0x23) (.b3 3) ∧
    Answers .getLi (base 0x23) (.b2 0) ∧ (base 0x23).cfg.modeStrict = false :=
  ⟨⟨rfl, by decide⟩, ⟨_, rfl, by decide, by decide⟩, ⟨_, rfl, by decide, by decide⟩,
    ⟨_, rfl, by decide, by decide⟩, rfl⟩

/-- Offsets 1 and 15, the ends of the scalars. -/
theorem witness_HeaderScalarsChangeOnlyByConstruction :
    (∃ t, exec (.setRefTs (some T0)) (base 0x23) = .next t) ∧
    Instr.setRefTs (some T0) ≠ .initDefault ∧ (∀ b, Instr.setRefTs (some T0) ≠ .load b) ∧
    (1 ≤ 1 ∧ 1 < 16) ∧ 1 ≤ 15 ∧ 15 < 16 :=
  ⟨⟨_, rfl⟩, by decide, (fun _ h => by cases h), by decide, by decide, by decide⟩

theorem witness_DecodeIsExactFloor :
    Config.default.lawful ∧ (1 : BitVec 64) ≠ 0 ∧ (0xFFFFFFFFFFFFFFFF : BitVec 64) ≠ 0 := by decide

theorem witness_DecodeSplitAndRange : decodeTime Config.default.tps 0xFFFFFFFFFFFFFFFF
    = some 42949672959999999 := by decide

/-- The first values out of range on both sides, and the ends of the range: the rounded values. -/
theorem witness_EncodeRoundsToNearest :
    0 < Config.default.tps ∧ Config.default.encTie = .halfUp ∧
    (2 * ((-1 : Int) * 2 ^ 32) + 10000000) / (2 * 10000000) < 0 ∧
    2 ^ 64 - 1 < (2 * ((42949672960000000 : Int) * 2 ^ 32) + 10000000) / (2 * 10000000) ∧
    (2 * ((0 : Int) * 2 ^ 32) + 10000000) / (2 * 10000000) = 0 ∧
    (2 * ((42949672959999999 : Int) * 2 ^ 32) + 10000000) / (2 * 10000000) ≤ 2 ^ 64 - 1 := by
  decide

/-- The other bound of a lawful TPS. -/
theorem witness_lawful_top : Config.lawful { Config.default with tps := 2 ^ 31 - 1, bufMax := 48 } := by
  decide

theorem witness_EpochAloneEncodesAsAbsent :
    encodeTime Config.default (some 1) = some 0x00000000000001AD ∧ 1 ≤ (1 : Time).toInt := by decide

/-- A tick count that comes back and one that comes back one less (V-CV-1, V-TS-4). -/
theorem witness_RoundTripLosesAtMostOneTick :
    (1 ≤ (1 : Time).toInt ∧ (42949672959999999 : Time).toInt ≤ 2 ^ 32 * 10000000 - 1) ∧
    decodeTime 10000000 0xFFFFFFFFFFFFFE53 = some 42949672959999999 ∧
    decodeTime 10000000 0x00000000000001AD = some 0 := by decide

/-- The boundary 429 of the values that decode to tick 0. -/
theorem witness_RewritingLowersRawBitsLittle :
    (429 : BitVec 64) ≠ 0 ∧ Config.default.tps = 10000000 ∧ (429 : BitVec 64).toNat ≤ 429 := by decide

/-- An operand in range, an absent one, and one out of range. -/
theorem witness_WireSettersStoreTheEncoding :
    (base 0x23).cur.Ready ∧ encodeTime (base 0x23).cfg (some T0) = some 0xE93C7F0000000000 ∧
    encodeTime (base 0x23).cfg none = some 0 ∧
    encodeTime (base 0x23).cfg (some 42949672960000000) = none :=
  ⟨⟨rfl, by decide⟩, by decide, rfl, by decide⟩

theorem witness_WireSettersRaiseRangeExactly :
    (base 0x23).cur.Ready ∧ encodedTicks (base 0x23).cfg (-1) < 0 ∧
    2 ^ 64 - 1 < encodedTicks (base 0x23).cfg 42949672960000000 ∧
    (∃ u, exec (.setDstTs (some (-1))) (base 0x23) = .next u) :=
  ⟨⟨rfl, by decide⟩, by decide, by decide, _, rfl⟩

/-- Each of the four required timestamps alone absent (the first clause of the two formulas too). -/
theorem witness_MetricsRaiseStateWhenAbsent :
    SomeAbsent (timed 0 1 1 0) ∧ SomeAbsent (timed 1 0 1 0) ∧ SomeAbsent (timed 1 1 0 0) ∧
    SomeAbsent (base 0x23) :=
  ⟨.inl (by decide +kernel), .inr (.inl (by decide +kernel)),
    .inr (.inr (.inl (by decide +kernel))), .inr (.inr (.inr rfl))⟩

/-- All four present: the scenario of V-L1-6. -/
theorem witness_four_present :
    FourPresent (scenario (T0 + 1200000)) T0 (T0 + 500000) (T0 + 600000) (T0 + 1200000) ∧
    (scenario (T0 + 1200000)).cur.Ready :=
  ⟨⟨by decide +kernel, by decide +kernel, by decide +kernel, rfl, rfl⟩, witness_ready_timed _ _ _ _⟩

/-- The differences and their sum fit; the sum alone does not (V-MT-1, the ninth row, with a = T0 - 10^7
and b = 2^63 - 1 - 10^7); the way back does not (the last row). -/
theorem witness_RoundTripTimeFormula :
    (InInt64 500000 ∧ InInt64 600000 ∧ InInt64 (500000 + 600000)) ∧
    (InInt64 39130559990000000 ∧ InInt64 9223372036844775807 ∧
      ¬ InInt64 (39130559990000000 + 9223372036844775807)) ∧
    ¬ InInt64 (-9223372036854775808 - 39130560000600000) := by
  unfold InInt64; decide

theorem witness_four_present_overflow :
    FourPresent (timed 0x0000000100000000 0xE93C7F0000000000 0x0000000100000000 9223372036854775807)
      10000000 T0 10000000 9223372036854775807 :=
  ⟨by decide +kernel, by decide +kernel, by decide +kernel, rfl, rfl⟩

/-- The numerator fits though the sum does not (V-MT-1, the ninth row); the way back does not. -/
theorem witness_CorrectionOffsetFormula :
    (InInt64 39130559990000000 ∧ InInt64 9223372036844775807 ∧
      InInt64 (39130559990000000 - 9223372036844775807)) ∧
    ¬ InInt64 (-9223372036854775808 - 39130560000600000) := by
  unfold InInt64; decide

theorem witness_HalveLaw : InInt64 (-(2 ^ 63)) ∧ InInt64 (2 ^ 63 - 1) ∧ (0 : Int) ≤ 3 ∧ (-3 : Int) ≤ 0 := by
  unfold InInt64; decide

/-- Both metrics answer, and the numerator is even. -/
theorem witness_MetricsAgree :
    Answers .getRtt (scenario (T0 + 1200000)) (.dur 1100000) ∧
    Answers .getOffset (scenario (T0 + 1200000)) (.dur (-50000)) ∧
    ((500000 : Int) - 600000) % 2 = 0 :=
  ⟨answers_of_ports test_getRtt, answers_of_ports test_getOffset, by decide⟩

/-- 48 bytes and BUF_MAX bytes are accepted, 47 and BUF_MAX + 1 are not. -/
theorem witness_LoadCopiesAcceptedBytes :
    (48 ≤ (zeros 48).length ∧ (zeros 68).length ≤ State.reset.cfg.bufMax) ∧
    (zeros 47).length < 48 ∧ State.reset.cfg.bufMax < (zeros 69).length := by decide

theorem witness_ReadBufReturnsEveryByte : State.reset.cur.pv = false ∧ (base 0x23).cur.Ready :=
  ⟨rfl, rfl, by decide⟩

theorem witness_NoPacketGuard : State.reset.cur.pv = false ∧ Instr.readBuf ≠ .initDefault ∧
    ∀ b, Instr.readBuf ≠ .load b := ⟨rfl, by decide, fun _ h => by cases h⟩

/-- With PV = 1; with PV = 0 a constructor that succeeds, one that fails, and another command. -/
theorem witness_PacketValidSetOnlyByConstructors :
    ((base 0x23).cur.pv = true ∧ ∃ t, exec (.load (zeros 47)) (base 0x23) = .next t) ∧
    (State.reset.cur.pv = false ∧ ∃ t, exec .initDefault State.reset = .next t ∧ t.cur.status = 0) ∧
    (∃ t, exec (.load (zeros 47)) State.reset = .next t ∧ t.cur.status ≠ 0) ∧
    ∃ t, exec .getLi State.reset = .next t :=
  ⟨⟨rfl, _, rfl⟩, ⟨rfl, _, rfl, by decide⟩, ⟨_, rfl, by decide⟩, _, rfl⟩

/-- An error with ERRLOG = 0, one with ERRLOG ≠ 0, and a command that ends OK. -/
theorem witness_ErrorsArePrecise :
    (∃ t, runCommand ⟨0x0000, .nothing⟩ State.reset = .next t ∧ t.cur.status ≠ 0 ∧
      State.reset.cur.errlog = 0) ∧
    (∃ t, runCommand ⟨0x0000, .nothing⟩ (withCodec { Codec.reset with errlog := 1 }) = .next t ∧
      t.cur.status ≠ 0 ∧ (withCodec { Codec.reset with errlog := 1 }).cur.errlog ≠ 0) ∧
    ∃ t, runCommand ⟨0x3000, .nothing⟩ State.reset = .next t ∧ t.cur.status = 0 :=
  ⟨⟨_, rfl, by decide, rfl⟩, ⟨_, rfl, by decide, by decide⟩, _, rfl, by decide⟩

/-- A command that raises nothing, ends OK and gives a result. -/
theorem witness_SuccessGivesResultOfItsKind :
    ∃ t, exec .getStratum (base 0x23) = .next t ∧
      (∀ e, t ≠ (base 0x23).setCur ((base 0x23).cur.fail e)) ∧ t.cur.status = 0 ∧
      t.cur.dout.isSome = true :=
  ⟨_, rfl, (fun e => by cases e <;> decide), by decide, by decide⟩

/-- Each level of R214. -/
theorem witness_ErrorPriority :
    decode ⟨0xFF00, .nothing⟩ = .error .reservedOpcode ∧
    (decode ⟨0x1700, .otime true (-1)⟩ = .ok (.setXmtTs (some (-1))) ∧
      (Instr.setXmtTs (some (-1))).constructs = false ∧ State.reset.cur.pv = false) ∧
    (decode ⟨0x3100, .bytes (zeros 47)⟩ = .ok (.load (zeros 47)) ∧ (zeros 47).length < 48) ∧
    (decode ⟨0x0605, .nothing⟩ = .ok (.setMode 5) ∧ (strict (base 0x23)).cfg.modeStrict = true) ∧
    (decode ⟨0x1100, .otime true (-1)⟩ = .ok (.setRefTs (some (-1))) ∧
      encodeTime (base 0x23).cfg (some (-1)) = none) ∧
    (decode ⟨0x2000, .nothing⟩ = .ok .getRtt ∧
      (timed 0 0xE93C7F0000000000 0x0000000100000000 9223372036854775807).cur.eightBytes 24 = 0) ∧
    ¬ InInt64 ((-9223372036854775808 : Time).toInt - (10000000 : Time).toInt) :=
  ⟨rfl, ⟨rfl, rfl, rfl⟩, ⟨rfl, by decide⟩, ⟨rfl, rfl⟩, ⟨rfl, by decide⟩, ⟨rfl, by decide +kernel⟩,
    by unfold InInt64; decide⟩

/-- The last level of R214: four times present whose way back leaves Int64. -/
theorem witness_four_present_back :
    FourPresent (timed 0x0000000100000000 0x0000000100000000 0x0000000100000000
      (-9223372036854775808)) 10000000 10000000 10000000 (-9223372036854775808) :=
  ⟨by decide +kernel, by decide +kernel, by decide +kernel, rfl, rfl⟩

theorem witness_CommandsRaiseOnlyTheirErrors :
    ∃ t, exec .getRtt (base 0x23) = .next t ∧ t.cur.status ≠ 0 := ⟨_, rfl, by decide +kernel⟩

/-- Bytes 23 and 32 lie outside the field of SET_ORG_TS, 24 and 31 inside; SET_ORG_TS meets the premises
of the other clauses too. -/
theorem witness_CommandFrame :
    (∃ t, exec (.setOrgTs (some T0)) (base 0x23) = .next t) ∧
    (Instr.setOrgTs (some T0)).stores 23 = false ∧ (Instr.setOrgTs (some T0)).stores 32 = false ∧
    (Instr.setOrgTs (some T0)).stores 24 = true ∧ (Instr.setOrgTs (some T0)).stores 31 = true ∧
    (Instr.setOrgTs (some T0)).constructs = false ∧
    (Instr.setOrgTs (some T0)).writesDestination = false ∧
    ∀ o, Instr.setOrgTs (some T0) ≠ .setDstTs o :=
  ⟨⟨_, rfl⟩, rfl, rfl, rfl, rfl, rfl, rfl, fun _ h => by cases h⟩

theorem witness_CommandsAreRepeatable :
    (∃ t, exec .getLi (base 0x23) = .next t ∧ t.cur.status = 0 ∧ Instr.getLi.reads = true) ∧
    ∃ t, exec (.setMode 4) (base 0x23) = .next t ∧ t.cur.status = 0 :=
  ⟨⟨_, rfl, by decide, rfl⟩, _, rfl, by decide⟩

/-- Two machines that differ in another instance and in what is issued. -/
theorem witness_InstancesAreIndependent :
    (issued (.release 0) ((base 0x23).putCodec 1 (holding (zeros 48)))).cfg = (base 0x23).cfg ∧
    (issued (.release 0) ((base 0x23).putCodec 1 (holding (zeros 48)))).cur = (base 0x23).cur ∧
    ∃ t, exec .getLi (base 0x23) = .next t := ⟨rfl, by decide, _, rfl⟩

theorem witness_ErrlogAndDestinationAreNotShown :
    (∃ t, exec .readBuf (scenario T0) = .next t) ∧ Instr.readBuf ≠ .getDstTs ∧
    Instr.readBuf ≠ .getRtt ∧ Instr.readBuf ≠ .getOffset := ⟨⟨_, rfl⟩, by decide, by decide, by decide⟩

/-- Two instances alike with PV = 0 and other bytes, and with DV = 0 and another DT. -/
theorem witness_UnspecifiedContentsAreUnobservable :
    (withCodec { Codec.reset with len := 3, buf := [(2, 9)] }).cfg = State.reset.cfg ∧
    State.reset.cur.Alike (withCodec { Codec.reset with len := 3, buf := [(2, 9)] }).cur ∧
    (base 0x23).cur.Alike (withCodec { holding (0x23 :: zeros 47) with dt := 5 }).cur ∧
    (∃ t, exec .initDefault State.reset = .next t) ∧ ∃ t, exec .getDstTs (base 0x23) = .next t :=
  ⟨rfl, ⟨rfl, rfl, rfl, rfl, rfl, (fun h => by cases h), (fun h => by cases h)⟩,
    ⟨rfl, rfl, rfl, rfl, rfl, (fun _ => ⟨rfl, rfl⟩), (fun h => by cases h)⟩, ⟨_, rfl⟩, _, rfl⟩

/-- A sound machine that is not the reset one: a packet, its parameters and its Clients. -/
theorem witness_sound : (base 0x23).Sound := by
  have fresh : (Client.fresh Config.default Endpoint.unset).Sound Config.default :=
    ⟨by decide, by decide, fun h => by cases h⟩
  have reset : Codec.reset.Sound Config.default :=
    ⟨rfl, (fun c h => by cases h), (fun h => by cases h), by decide, by decide, fun h => by cases h⟩
  have held : (holding (0x23 :: zeros 47)).Sound Config.default :=
    ⟨Memory.wf_ofBytes _, (fun c h => by
      rcases Memory.mem_writeBytes h with h | h
      · exact lt_of_lt_of_eq h.2 (Nat.zero_add _)
      · cases h), (fun _ => by decide), by decide, by decide, fun h => by cases h⟩
  refine ⟨by decide, by decide, rfl, fun k => ?_, fun c => fresh⟩
  by_cases h : k = 0
  · subst h; exact held
  · have e : (base 0x23).codec k = Codec.reset := by
      simp [base, packet, withCodec, State.codec, Sparse.get, Ne.symm h]
    rw [e]; exact reset

theorem witness_StepKeepsSound : ∃ t, step (base 0x23) = .next t := ⟨_, rfl⟩

/-- 9,999 ticks are below 1 ms at TPS = 10^7, 10,000 ticks are not. -/
theorem witness_TimeoutProperty :
    (issued (.getTimeout 0) State.reset).run = none ∧
    (issued (.getTimeout 0) State.reset).pending = .getTimeout 0 :: [] ∧
    (issued (.setTimeout 0 9999) State.reset).pending = .setTimeout 0 9999 :: [] ∧
    (9999 : Duration).toInt * 1000 < Config.default.tps ∧
    (Config.default.tps : Int) ≤ (10000 : Duration).toInt * 1000 :=
  ⟨rfl, rfl, rfl, by decide, by decide⟩

/-- An endpoint with an address of four bytes. -/
def server : Endpoint := { address := [192, 0, 2, 1], port := ntpPort }

theorem witness_NewClientDefaults :
    Config.default.lawful ∧ (issued (.newClient 0 server) State.reset).cfg = Config.default ∧
    (issued (.newClient 0 server) State.reset).run = none ∧
    (issued (.newClient 0 server) State.reset).pending = .newClient 0 server :: [] :=
  ⟨by decide, rfl, rfl, rfl⟩

/-- A machine whose Client 0 is released. -/
def releasedClient : State :=
  { State.reset with clients := [(0, { Client.fresh Config.default Endpoint.unset with released := true })] }

theorem witness_ReleaseIsFinal :
    (issued (.release 0) State.reset).run = none ∧
    (issued (.release 0) State.reset).pending = .release 0 :: [] ∧
    (issued (.query 0 0 1 .noReply 0) releasedClient).run = none ∧
    ((issued (.query 0 0 1 .noReply 0) releasedClient).client 0).released = true ∧
    (issued (.query 0 0 1 .noReply 0) releasedClient).pending = .query 0 0 1 .noReply 0 :: [] :=
  ⟨rfl, rfl, rfl, rfl, rfl⟩

/-- A query with each way a channel gives no reply. -/
theorem witness_TransportFailureKeepsCodecs :
    ((issued (.query 0 0 1 .sendFails T0) (base 0x23)).run = none ∧
      (issued (.query 0 0 1 .sendFails T0) (base 0x23)).pending = .query 0 0 1 .sendFails T0 :: [] ∧
      ((issued (.query 0 0 1 .sendFails T0) (base 0x23)).client 0).released = false ∧
      ((issued (.query 0 0 1 .sendFails T0) (base 0x23)).codec 0).Ready) ∧
    (∀ r, ChannelAnswer.sendFails ≠ .reply r) ∧ (∀ r, ChannelAnswer.noReply ≠ .reply r) ∧
    ∀ r, ChannelAnswer.receiveFails ≠ .reply r :=
  ⟨⟨rfl, rfl, rfl, rfl, by decide⟩, (fun _ h => by cases h), (fun _ h => by cases h),
    fun _ h => by cases h⟩

/-- A request, with the shortest and the longest reply accepted and their neighbours. -/
theorem witness_QueryReturnsStampedReply :
    (base 0x23).cfg.lawful ∧ (base 0x23).run = none ∧
    (issued (.query 0 0 1 (.reply (zeros 48)) T0) (base 0x23)).pending
      = .query 0 0 1 (.reply (zeros 48)) T0 :: [] ∧
    ((issued (.query 0 0 1 (.reply (zeros 48)) T0) (base 0x23)).client 0).released = false ∧
    (0 : Nat) ≠ 1 ∧ ((base 0x23).codec 0).Ready ∧
    (48 ≤ (zeros 48).length ∧ (zeros 68).length ≤ (base 0x23).cfg.bufMax) ∧
    (zeros 47).length < 48 ∧ (base 0x23).cfg.bufMax < (zeros 69).length :=
  ⟨by decide, rfl, rfl, rfl, by decide, ⟨rfl, by decide⟩, by decide, by decide, by decide⟩

/-- A clock reading in range and one below it. -/
theorem witness_DefaultQueryStampsTheRequest :
    (issued (.queryDefault 0 0 1 .noReply T0 T0) State.reset).run = none ∧
    (issued (.queryDefault 0 0 1 .noReply T0 T0) State.reset).pending
      = .queryDefault 0 0 1 .noReply T0 T0 :: [] ∧
    (issued (.getCorrectionOffset 0 0 1 .noReply T0 T0) State.reset).pending
      = .getCorrectionOffset 0 0 1 .noReply T0 T0 :: [] ∧
    ((issued (.queryDefault 0 0 1 .noReply T0 T0) State.reset).client 0).released = false ∧
    encodeTime State.reset.cfg (some T0) = some 0xE93C7F0000000000 ∧
    encodeTime State.reset.cfg (some (-1)) = none := ⟨rfl, rfl, rfl, rfl, by decide, by decide⟩

theorem witness_AssemblerWords :
    ((-1 : Int) < 0 ∧ 3 < (4 : Int) ∧ 7 < (8 : Int)) ∧ (0 ≤ (3 : Int) ∧ 0 ≤ (7 : Int)) ∧
    TsLit.operand Config.default .absent = some none ∧
    TsLit.operand Config.default (.cal ⟨2024, 1, 1, 0, 0, 0, 0⟩) = some (some T0) := by decide

end Sys2Proof.Tests
end

section
/-! SUPPORT. The implementation parameters of R8 (log 1) are kept by every step: one lemma for each
operation of the host and each line of the exchange, over inversion lemmas for a step and for the
continuations of the exchange. -/

namespace Sys2Proof.Machine

variable {s t : State} {x : Exchange} {d : Dout}

/-! The host's side: no operation on a Client, and no end of an exchange, touches the parameters. -/

@[simp] theorem answer_cfg (c : Nat) (v : HostValue) : (answer c v s).cfg = s.cfg := rfl
@[simp] theorem reject_cfg (c : Nat) (code : BitVec 4) : (reject c code s).cfg = s.cfg := rfl
@[simp] theorem endOk_cfg (v : HostValue) : (endOk x v s).cfg = s.cfg := answer_cfg _ v
@[simp] theorem endError_cfg (code : BitVec 4) : (endError x code s).cfg = s.cfg :=
  reject_cfg _ code
@[simp] theorem getTimeout_cfg (c : Nat) : (getTimeout c s).cfg = s.cfg := answer_cfg c _
@[simp] theorem releaseClient_cfg (c : Nat) : (releaseClient c s).cfg = s.cfg := rfl
@[simp] theorem createClient_cfg (c : Nat) (remote : Endpoint) :
    (createClient c remote s).cfg = s.cfg := rfl

@[simp] theorem setTimeout_cfg (c : Nat) (u : Duration) : (setTimeout c u s).cfg = s.cfg := by
  rcases setTimeout_cases c u s with ⟨_, e⟩ | ⟨_, e⟩ <;> simp [e]

@[simp] theorem beginExchange_cfg : (beginExchange x s).cfg = s.cfg := by
  rcases beginExchange_cases x s with ⟨_, e⟩ | ⟨_, e⟩ <;> simp [e]

@[simp] theorem sendDatagram_cfg (b : List Byte) : (sendDatagram x b s).cfg = s.cfg := by
  unfold sendDatagram
  cases x.channel <;> rfl

@[simp] theorem receiveDatagram_cfg : (receiveDatagram x s).cfg = s.cfg := by
  unfold receiveDatagram
  cases x.channel <;> rfl

/-! What each continuation of the exchange can answer next. -/

theorem thenGo_next {p : Phase} : thenGo x p d s = .next t ↔ t = s.goTo x p :=
  ⟨fun h => (Host.Outcome.next.inj h).symm, fun h => by rw [h]; rfl⟩

theorem thenSend_next (h : thenSend x d s = .next t) :
    ∃ b, d = .bytes b ∧ t = s.goTo x (.send b) := by
  cases d with
  | bytes b => exact ⟨b, rfl, (Host.Outcome.next.inj h).symm⟩
  | _ => cases h

theorem thenCopy_next (h : thenCopy x d s = .next t) :
    ∃ o, d = .otime o ∧ t = s.goTo x (.copyOrigin o) := by
  cases d with
  | otime o => exact ⟨o, rfl, (Host.Outcome.next.inj h).symm⟩
  | _ => cases h

theorem thenReturnOffset_next (h : thenReturnOffset x d s = .next t) :
    ∃ v, d = .dur v ∧ t = endOk x (.duration v) s := by
  cases d with
  | dur v => exact ⟨v, rfl, (Host.Outcome.next.inj h).symm⟩
  | _ => cases h

theorem thenReturnReply_next (h : thenReturnReply x d s = .next t) :
    (x.wantOffset = true ∧ t = s.goTo x .readOffset) ∨
    (x.wantOffset = false ∧ t = endOk x (.packet x.rsp) s) := by
  unfold thenReturnReply at h
  by_cases hw : x.wantOffset = true
  · rw [if_pos hw] at h
    exact .inl ⟨hw, (Host.Outcome.next.inj h).symm⟩
  · rw [if_neg hw] at h
    exact .inr ⟨by simpa using hw, (Host.Outcome.next.inj h).symm⟩

/-- Everything a step can answer next: the line of the exchange in progress; nothing, with nothing
issued (R224); or the next host operation. -/
theorem step_next (h : step s = .next t) :
    (∃ x, s.run = some x ∧ advance x s = .next t) ∨
    (s.run = none ∧ s.pending = [] ∧ t = s) ∨
    (∃ op rest, s.run = none ∧ s.pending = op :: rest ∧
      perform op { s with pending := rest } = .next t) := by
  obtain hr | ⟨x, hr⟩ := Option.eq_none_or_eq_some s.run
  · cases hp : s.pending with
    | nil =>
      rw [step, stepOnce, hr, hp] at h
      exact .inr (.inl ⟨hr, rfl, (Host.Outcome.next.inj h).symm⟩)
    | cons op rest => exact .inr (.inr ⟨op, rest, hr, rfl, (step_of_pending hr hp).symm.trans h⟩)
  · exact .inl ⟨x, hr, (step_of_run hr).symm.trans h⟩

/-! The parameters along a step: a codec command, a line of the exchange, a host operation. -/

theorem issue_next_cfg {k : Nat} {c : Command} (h : issue k c s = .next t) : t.cfg = s.cfg := by
  obtain ⟨y, rfl⟩ := runCommand_next h
  rfl

/-- A codec command of the exchange keeps the parameters where its continuation does. -/
theorem call_next_cfg {k : Nat} {c : Command} {cont : Dout → State → Result}
    (hc : ∀ {d u t}, cont d u = .next t → t.cfg = u.cfg) (h : call x k c cont s = .next t) :
    t.cfg = s.cfg := by
  obtain ⟨u, hi, ⟨_, rfl⟩ | ⟨_, d, _, hd⟩⟩ := call_next h
  · rw [endError_cfg, issue_next_cfg hi]
  · exact (hc hd).trans (issue_next_cfg hi)

theorem thenGo_next_cfg {p : Phase} (h : thenGo x p d s = .next t) : t.cfg = s.cfg := by
  rw [thenGo_next.1 h, State.goTo_cfg]

theorem thenSend_next_cfg (h : thenSend x d s = .next t) : t.cfg = s.cfg := by
  obtain ⟨b, _, rfl⟩ := thenSend_next h
  exact State.goTo_cfg _ x _

theorem thenCopy_next_cfg (h : thenCopy x d s = .next t) : t.cfg = s.cfg := by
  obtain ⟨o, _, rfl⟩ := thenCopy_next h
  exact State.goTo_cfg _ x _

theorem thenReturnOffset_next_cfg (h : thenReturnOffset x d s = .next t) : t.cfg = s.cfg := by
  obtain ⟨v, _, rfl⟩ := thenReturnOffset_next h
  exact endOk_cfg _

theorem thenReturnReply_next_cfg (h : thenReturnReply x d s = .next t) : t.cfg = s.cfg := by
  obtain ⟨_, rfl⟩ | ⟨_, rfl⟩ := thenReturnReply_next h
  · exact State.goTo_cfg _ x _
  · exact endOk_cfg _

theorem advance_next_cfg (h : advance x s = .next t) : t.cfg = s.cfg := by
  unfold advance at h
  cases hp : x.phase <;> rw [hp] at h
  case initRequest | stampRequest | loadReply | copyOrigin => exact call_next_cfg thenGo_next_cfg h
  case readRequest => exact call_next_cfg thenSend_next_cfg h
  case send b => cases h; exact sendDatagram_cfg b
  case receive => cases h; exact receiveDatagram_cfg
  case readOrigin => exact call_next_cfg thenCopy_next_cfg h
  case stampReply => exact call_next_cfg thenReturnReply_next_cfg h
  case readOffset => exact call_next_cfg thenReturnOffset_next_cfg h

theorem perform_next_cfg {op : HostOp} (h : perform op s = .next t) : t.cfg = s.cfg := by
  cases op with
  | command k c => exact issue_next_cfg h
  | resetCodec k => cases h; exact State.putCodec_cfg s _ k
  | newClient c remote => cases h; exact createClient_cfg c remote
  | getTimeout c => cases h; exact getTimeout_cfg c
  | setTimeout c u => cases h; exact setTimeout_cfg c u
  | query | queryDefault | getCorrectionOffset => cases h; exact beginExchange_cfg
  | release c => cases h; exact releaseClient_cfg c

end Sys2Proof.Machine

namespace Sys2Proof
open Machine

/-- Settles O53, by the three kinds of step: a line of the exchange, an idle step, a host operation. -/
theorem parametersNeverChange : Obligations.ParametersNeverChange := by
  intro s t h
  obtain ⟨x, _, hx⟩ | ⟨_, _, rfl⟩ | ⟨op, rest, _, _, hop⟩ := step_next h
  · exact advance_next_cfg hx
  · rfl
  · have kept := perform_next_cfg hop
    exact kept

end Sys2Proof
end

section
/-! SUPPORT. What a command depends on, said once for every relation between instances that shows a
command the same packet and that each update of an instance keeps: two runs that start related end
related. Independence of the other instances (R37), of ERRLOG (R31), of the destination (R30), and of
what the spec leaves unspecified (R33) are four such relations. -/

namespace Sys2Proof.Machine

/-- A relation between instances under which both show a command the same packet, and which raising,
responding and every write of a command keep. -/
structure Codec.Congruence (R : Codec → Codec → Prop) : Prop where
  pv : ∀ {x y}, R x y → y.pv = x.pv
  packet : ∀ {x y}, R x y → x.pv = true → y.len = x.len ∧ y.buf = x.buf
  fail : ∀ {x y} e, R x y → R (x.fail e) (y.fail e)
  ok : ∀ {x y} d, R x y → R (x.ok d) (y.ok d)
  withBuf : ∀ {x y} m, R x y → R (x.withBuf m) (y.withBuf m)
  setDestination : ∀ {x y} o, R x y → R (x.setDestination o) (y.setDestination o)
  initialised : ∀ {x y}, R x y → R x.initialised y.initialised
  loaded : ∀ {x y} b, R x y → R (x.loaded b) (y.loaded b)

/-- Where the first run answers a next state, so does the second, and the instances they were issued
to end related. -/
def Follows (R : Codec → Codec → Prop) (r r' : Result) : Prop :=
  ∀ t, r = .next t → ∃ t', r' = .next t' ∧ R t.cur t'.cur

section
variable {R : Codec → Codec → Prop} (hR : Codec.Congruence R) {s s' : State}

include hR

/-! The shared operations, run on two machines. -/

theorem raise_follows (h : R s.cur s'.cur) (e : Err) : Follows R (raise e s) (raise e s') := by
  intro t ht
  obtain rfl := raise_next.1 ht
  exact ⟨_, rfl, by simpa using hR.fail e h⟩

theorem respond_follows {x y : Codec} (hxy : R x y) (d : Dout) :
    Follows R (respond d x s) (respond d y s') := by
  intro t ht
  obtain rfl := respond_next.1 ht
  exact ⟨_, rfl, by simpa using hR.ok d hxy⟩

/-- The PV check comes out the same on both machines, so the rules decide. -/
theorem withPacket_follows (h : R s.cur s'.cur) {body body' : Codec → Result}
    (hb : s.cur.Ready → Follows R (body s.cur) (body' s'.cur)) :
    Follows R (withPacket s body) (withPacket s' body') := by
  intro t ht
  rcases withPacket_next ht with ⟨hp, rfl⟩ | ⟨hr, ht⟩
  · rw [withPacket_noPacket _ ((hR.pv h).trans hp)]
    exact raise_follows hR h .noPacket _ rfl
  · obtain ⟨hlen, _⟩ := hR.packet h hr.1
    rw [withPacket_ready _ ⟨(hR.pv h).trans hr.1, hlen ▸ hr.2⟩]
    exact hb hr t ht

/-- A command that only reads the packet returns the same result on both machines. -/
theorem readPacket_follows (h : R s.cur s'.cur) {d d' : Codec → Dout}
    (hd : s.cur.pv = true → d' s'.cur = d s.cur) :
    Follows R (withPacket s fun x => respond (d x) x s)
      (withPacket s' fun x => respond (d' x) x s') :=
  withPacket_follows hR h fun hr => by rw [hd hr.1]; exact respond_follows hR h _

variable (h : R s.cur s'.cur)
include h

theorem getSubField_follows (f : SubField) (kind : BitVec f.width → Dout) :
    Follows R (getSubField f kind s) (getSubField f kind s') :=
  readPacket_follows hR h fun hp => by rw [(hR.packet h hp).2]

theorem getByte_follows (off : Nat) : Follows R (getByte off s) (getByte off s') :=
  readPacket_follows hR h fun hp => by rw [(hR.packet h hp).2]

theorem getWord_follows (off : Nat) : Follows R (getWord off s) (getWord off s') :=
  readPacket_follows hR h fun hp => by rw [(hR.packet h hp).2]

theorem execReadBuf_follows : Follows R (execReadBuf s) (execReadBuf s') :=
  readPacket_follows hR h fun hp => by
    obtain ⟨hlen, hbuf⟩ := hR.packet h hp
    rw [Codec.bytes, Codec.bytes, hlen, hbuf]

theorem execGetDstTs_follows (hd : s'.cur.destination = s.cur.destination) :
    Follows R (execGetDstTs s) (execGetDstTs s') :=
  readPacket_follows hR h fun _ => by rw [hd]

theorem setSubField_follows (f : SubField) (v : BitVec f.width) :
    Follows R (setSubField f v s) (setSubField f v s') :=
  withPacket_follows hR h fun hr => by
    rw [(hR.packet h hr.1).2]
    exact respond_follows hR (hR.withBuf _ h) _

theorem execSetDstTs_follows (o : Option Time) :
    Follows R (execSetDstTs o s) (execSetDstTs o s') :=
  withPacket_follows hR h fun _ => respond_follows hR (hR.setDestination o h) _

theorem execInitDefault_follows : Follows R (execInitDefault s) (execInitDefault s') :=
  respond_follows hR (hR.initialised h) _

variable (hg : s'.cfg = s.cfg)
include hg

theorem execSetMode_follows (v : BitVec 3) : Follows R (execSetMode v s) (execSetMode v s') :=
  withPacket_follows hR h fun _ => by
    rw [hg]
    cases modeAllowed s.cfg v with
    | true => exact setSubField_follows hR h .mode v
    | false => exact raise_follows hR h _

theorem getTimestamp_follows (f : WireTs) : Follows R (getTimestamp f s) (getTimestamp f s') :=
  readPacket_follows hR h fun hp => by rw [hg, Codec.rawTs, Codec.rawTs, (hR.packet h hp).2]

theorem setTimestamp_follows (f : WireTs) (o : Option Time) :
    Follows R (setTimestamp f o s) (setTimestamp f o s') :=
  withPacket_follows hR h fun hr => by
    rw [hg, (hR.packet h hr.1).2]
    cases encodeTime s.cfg o with
    | none => exact raise_follows hR h _
    | some r => exact respond_follows hR (hR.withBuf _ h) _

theorem metric_follows (hd : s'.cur.destination = s.cur.destination)
    (formula : FourTimes → Option Duration) :
    Follows R (metric formula s) (metric formula s') :=
  withPacket_follows hR h fun hr => by
    have same : required s'.cfg s'.cur = required s.cfg s.cur := by
      simp only [required, Codec.rawTs, hg, hd, (hR.packet h hr.1).2]
    rw [same]
    cases required s.cfg s.cur with
    | none => exact raise_follows hR h _
    | some f =>
      cases hf : formula f with
      | none => simpa only [hf] using raise_follows hR h _
      | some d => simpa only [hf] using respond_follows hR h _

theorem execLoad_follows (b : List Byte) : Follows R (execLoad b s) (execLoad b s') := by
  rw [execLoad, execLoad, hg]
  cases lengthAccepted s.cfg b.length with
  | true => exact respond_follows hR (hR.loaded b h) _
  | false => exact raise_follows hR h _

/-- Machines with the same parameters and related instances answer every command alike, where the
three commands that show the destination find the same one. -/
theorem exec_follows (i : Instr)
    (hd : i = .getDstTs ∨ i = .getRtt ∨ i = .getOffset →
      s'.cur.destination = s.cur.destination) :
    Follows R (exec i s) (exec i s') := by
  cases i with
  | getLi | getVn | getMode => exact getSubField_follows hR h _ _
  | setLi v => exact setSubField_follows hR h .li v
  | setVn v => exact setSubField_follows hR h .vn v
  | setMode v => exact execSetMode_follows hR h hg v
  | getStratum | getPoll | getPrecision => exact getByte_follows hR h _
  | getRootDelay | getRootDispersion | getReferenceId => exact getWord_follows hR h _
  | getRefTs | getOrgTs | getRcvTs | getXmtTs => exact getTimestamp_follows hR h hg _
  | setRefTs o | setOrgTs o | setRcvTs o | setXmtTs o => exact setTimestamp_follows hR h hg _ o
  | getDstTs => exact execGetDstTs_follows hR h (hd (.inl rfl))
  | setDstTs o => exact execSetDstTs_follows hR h o
  | getRtt => exact metric_follows hR h hg (hd (.inr (.inl rfl))) _
  | getOffset =>
    rw [exec_getOffset, exec_getOffset, hg]
    exact metric_follows hR h hg (hd (.inr (.inr rfl))) _
  | initDefault => exact execInitDefault_follows hR h
  | load b => exact execLoad_follows hR h hg b
  | readBuf => exact execReadBuf_follows hR h

end

/-! The four relations. -/

theorem Codec.congruence_eq : Codec.Congruence fun x y => y = x where
  pv h := by rw [h]
  packet h _ := by rw [h]; exact ⟨rfl, rfl⟩
  fail _ h := by rw [h]
  ok _ h := by rw [h]
  withBuf _ h := by rw [h]
  setDestination _ h := by rw [h]
  initialised h := by rw [h]
  loaded _ h := by rw [h]

/-- The ports of two instances show the same (R60). -/
def Codec.SamePorts (x y : Codec) : Prop := y.status = x.status ∧ y.dout = x.dout

/-- Two instances that differ at most in ERRLOG. -/
def Codec.AlikeButErrlog (x y : Codec) : Prop := x.SamePacket y ∧ x.SamePorts y

/-- Two instances that differ at most in the destination register, DV and DT. -/
def Codec.AlikeButDestination (x y : Codec) : Prop :=
  y.pv = x.pv ∧ y.len = x.len ∧ y.buf = x.buf ∧ y.errlog = x.errlog ∧ x.SamePorts y

theorem Codec.AlikeButErrlog.destination {x y : Codec} (h : x.AlikeButErrlog y) :
    y.destination = x.destination := by
  obtain ⟨⟨_, _, _, hdv, hdt⟩, _⟩ := h
  rw [Codec.destination, Codec.destination, hdv, hdt]

theorem Codec.congruence_alikeButErrlog : Codec.Congruence Codec.AlikeButErrlog where
  pv := fun ⟨⟨pv, _⟩, _⟩ => pv
  packet := fun ⟨⟨_, len, buf, _⟩, _⟩ _ => ⟨len, buf⟩
  fail _ := fun ⟨packet, _⟩ => ⟨packet, rfl, rfl⟩
  ok _ := fun ⟨packet, _⟩ => ⟨packet, rfl, rfl⟩
  withBuf _ := fun ⟨⟨pv, len, _, dv, dt⟩, ports⟩ => ⟨⟨pv, len, rfl, dv, dt⟩, ports⟩
  setDestination o h := by
    obtain ⟨⟨pv, len, buf, dv, dt⟩, ports⟩ := h
    cases o with
    | none => exact ⟨⟨pv, len, buf, rfl, dt⟩, ports⟩
    | some t => exact ⟨⟨pv, len, buf, rfl, rfl⟩, ports⟩
  initialised := fun ⟨⟨_, _, _, _, dt⟩, ports⟩ => ⟨⟨rfl, rfl, rfl, rfl, dt⟩, ports⟩
  loaded _ := fun ⟨⟨_, _, _, _, dt⟩, ports⟩ => ⟨⟨rfl, rfl, rfl, rfl, dt⟩, ports⟩

theorem Codec.congruence_alikeButDestination : Codec.Congruence Codec.AlikeButDestination where
  pv := fun ⟨pv, _⟩ => pv
  packet := fun ⟨_, len, buf, _⟩ _ => ⟨len, buf⟩
  fail e h := by
    obtain ⟨pv, len, buf, errlog, _⟩ := h
    exact ⟨pv, len, buf, by rw [Codec.fail_errlog, Codec.fail_errlog, errlog], rfl, rfl⟩
  ok _ := fun ⟨pv, len, buf, errlog, _⟩ => ⟨pv, len, buf, errlog, rfl, rfl⟩
  withBuf _ := fun ⟨pv, len, _, errlog, ports⟩ => ⟨pv, len, rfl, errlog, ports⟩
  setDestination o h := by
    obtain ⟨pv, len, buf, errlog, ports⟩ := h
    cases o <;> exact ⟨pv, len, buf, errlog, ports⟩
  initialised := fun ⟨_, _, _, errlog, ports⟩ => ⟨rfl, rfl, rfl, errlog, ports⟩
  loaded _ := fun ⟨_, _, _, errlog, ports⟩ => ⟨rfl, rfl, rfl, errlog, ports⟩

theorem Codec.Alike.destination {x y : Codec} (h : x.Alike y) : y.destination = x.destination := by
  obtain ⟨_, hdv, _, _, _, _, hdt⟩ := h
  rw [Codec.destination, Codec.destination, hdv]
  cases hx : x.dv with
  | true => rw [hdt hx]
  | false => rfl

theorem Codec.congruence_alike : Codec.Congruence Codec.Alike where
  pv := fun ⟨pv, _⟩ => pv
  packet := fun ⟨_, _, _, _, _, packet, _⟩ => packet
  fail e h := by
    obtain ⟨pv, dv, errlog, _, _, packet, dt⟩ := h
    exact ⟨pv, dv, by rw [Codec.fail_errlog, Codec.fail_errlog, errlog], rfl, rfl, packet, dt⟩
  ok _ := fun ⟨pv, dv, errlog, _, _, packet, dt⟩ => ⟨pv, dv, errlog, rfl, rfl, packet, dt⟩
  withBuf _ := fun ⟨pv, dv, errlog, status, dout, packet, dt⟩ =>
    ⟨pv, dv, errlog, status, dout, fun hp => ⟨(packet hp).1, rfl⟩, dt⟩
  setDestination o h := by
    obtain ⟨pv, dv, errlog, status, dout, packet, dt⟩ := h
    cases o with
    | none => exact ⟨pv, rfl, errlog, status, dout, packet, fun h => by cases h⟩
    | some t => exact ⟨pv, rfl, errlog, status, dout, packet, fun _ => rfl⟩
  initialised := fun ⟨_, _, errlog, status, dout, _, _⟩ =>
    ⟨rfl, rfl, errlog, status, dout, fun _ => ⟨rfl, rfl⟩, fun h => by cases h⟩
  loaded _ := fun ⟨_, _, errlog, status, dout, _, _⟩ =>
    ⟨rfl, rfl, errlog, status, dout, fun _ => ⟨rfl, rfl⟩, fun h => by cases h⟩

/-- Replacing the selected instance leaves every other alone (R37). -/
theorem State.sameOthers_setCur (s : State) (x : Codec) : s.SameOthers (s.setCur x) :=
  fun _ hk => s.codec_setCur_other x hk

/-- Replacing an instance changes nothing outside the instances. -/
theorem State.sameOutside_setCur (s : State) (x : Codec) : s.SameOutside (s.setCur x) :=
  ⟨rfl, rfl, rfl, rfl, rfl⟩

end Sys2Proof.Machine

namespace Sys2Proof
open Machine

/-- Settles O49: `Alike` is kept by two runs of any command, and shows both the same destination. -/
theorem unspecifiedContentsAreUnobservable : Obligations.UnspecifiedContentsAreUnobservable := by
  refine ⟨fun i s s' t hg h ht => ?_, fun len buf dt => ?_⟩
  · exact exec_follows Codec.congruence_alike h hg i (fun _ => h.destination) t ht
  · exact ⟨rfl, rfl, rfl, rfl, rfl, (fun h => by cases h), fun h => by cases h⟩

/-- Settles O47: a command answers next with only its own instance replaced, and two runs from equal
instances end with equal instances. -/
theorem instancesAreIndependent : Obligations.InstancesAreIndependent := by
  refine ⟨fun i s t ht => ?_, fun i s s' t hg h ht => ?_⟩
  · obtain ⟨x, rfl⟩ := exec_next_setCur ht
    exact s.sameOthers_setCur x
  · exact exec_follows Codec.congruence_eq h hg i (fun _ => by rw [h]) t ht

/-- Settles O48: two instances that differ at most in ERRLOG, or at most in the destination, still do
after any command, but for the three that show the destination. -/
theorem errlogAndDestinationAreNotShown : Obligations.ErrlogAndDestinationAreNotShown := by
  refine fun i s t ht => ⟨fun e => ?_, fun hdst hrtt hoff dv dt => ?_⟩
  · have start : s.cur.AlikeButErrlog (s.setCur { s.cur with errlog := e }).cur := by
      rw [State.cur_setCur]
      exact ⟨⟨rfl, rfl, rfl, rfl, rfl⟩, rfl, rfl⟩
    obtain ⟨t', ht', packet, status, dout⟩ :=
      exec_follows Codec.congruence_alikeButErrlog start rfl i (fun _ => start.destination) t ht
    exact ⟨t', ht', status, dout, packet⟩
  · have start : s.cur.AlikeButDestination (s.setCur { s.cur with dv := dv, dt := dt }).cur := by
      rw [State.cur_setCur]
      exact ⟨rfl, rfl, rfl, rfl, rfl, rfl⟩
    have hidden : ¬ (i = .getDstTs ∨ i = .getRtt ∨ i = .getOffset) := by
      rintro (hi | hi | hi)
      exacts [hdst hi, hrtt hi, hoff hi]
    obtain ⟨t', ht', pv, len, buf, errlog, status, dout⟩ :=
      exec_follows Codec.congruence_alikeButDestination start rfl i (fun hi => absurd hi hidden) t ht
    exact ⟨t', ht', status, dout, pv, len, buf, errlog⟩

end Sys2Proof
end

section
/-! SUPPORT. What a command that ends OK leaves of the instance it ran on, said once for all 27
commands: the rules of R26, R27 and R32 on the packet are read off it. -/

namespace Sys2Proof.Machine

/-- What a command that ends OK leaves of its instance `x`, the ports aside: a read leaves it as it
was, a setter writes the field it stores to (R45) or the destination, a constructor makes a packet. -/
inductive Codec.Leaves (g : Config) (x : Codec) : Instr → Codec → Prop
  | same {i : Instr} (reads : i.reads = true) (ready : x.Ready) : Leaves g x i x
  | byteZero {i : Instr} (b : Byte) (stores : ∀ a, i.stores a = (a == 0)) (ready : x.Ready) :
    Leaves g x i (x.withBuf (x.buf.write 0 b))
  | wireTs {i : Instr} (f : WireTs) (r : BitVec 64) (stores : ∀ a, i.stores a = f.covers a)
    (ready : x.Ready) : Leaves g x i (x.withBuf (x.buf.write64 f.offset r))
  | destination (o : Option Time) (ready : x.Ready) :
    Leaves g x (.setDstTs o) (x.setDestination o)
  | initialised : Leaves g x .initDefault x.initialised
  | loaded (b : List Byte) (accepted : lengthAccepted g b.length = true) :
    Leaves g x (.load b) (x.loaded b)

variable {s t : State}

/-- Everything a decoded command can answer next: an error, or OK with what the command leaves. -/
theorem exec_leaves {i : Instr} (h : exec i s = .next t) :
    (∃ e, t = s.setCur (s.cur.fail e)) ∨
    (∃ y d, Codec.Leaves s.cfg s.cur i y ∧ t = s.setCur (y.ok d)) := by
  cases i with
  | getLi | getVn | getMode =>
    exact (getSubField_next h).imp (fun h => ⟨_, h⟩) fun ⟨hr, h⟩ => ⟨_, _, .same rfl hr, h⟩
  | setLi v | setVn v =>
    exact (setSubField_next h).imp (fun h => ⟨_, h⟩)
      fun ⟨hr, h⟩ => ⟨_, _, .byteZero _ (fun _ => rfl) hr, h⟩
  | setMode v =>
    exact (execSetMode_next h).imp (fun ⟨e, _, h⟩ => ⟨e, h⟩)
      fun ⟨hr, _, h⟩ => ⟨_, _, .byteZero _ (fun _ => rfl) hr, h⟩
  | getStratum | getPoll | getPrecision =>
    exact (getByte_next h).imp (fun h => ⟨_, h⟩) fun ⟨hr, h⟩ => ⟨_, _, .same rfl hr, h⟩
  | getRootDelay | getRootDispersion | getReferenceId =>
    exact (getWord_next h).imp (fun h => ⟨_, h⟩) fun ⟨hr, h⟩ => ⟨_, _, .same rfl hr, h⟩
  | getRefTs | getOrgTs | getRcvTs | getXmtTs =>
    exact (getTimestamp_next h).imp (fun h => ⟨_, h⟩) fun ⟨hr, h⟩ => ⟨_, _, .same rfl hr, h⟩
  | setRefTs o | setOrgTs o | setRcvTs o | setXmtTs o =>
    exact (setTimestamp_next h).imp (fun ⟨e, _, h⟩ => ⟨e, h⟩)
      fun ⟨r, hr, _, h⟩ => ⟨_, _, .wireTs _ r (fun _ => rfl) hr, h⟩
  | getDstTs =>
    exact (execGetDstTs_next h).imp (fun h => ⟨_, h⟩) fun ⟨hr, h⟩ => ⟨_, _, .same rfl hr, h⟩
  | setDstTs o =>
    exact (execSetDstTs_next h).imp (fun h => ⟨_, h⟩) fun ⟨hr, h⟩ => ⟨_, _, .destination o hr, h⟩
  | getRtt | getOffset =>
    exact (metric_next h).imp (fun ⟨e, _, h⟩ => ⟨e, h⟩)
      fun ⟨_, _, hr, _, _, h⟩ => ⟨_, _, .same rfl hr, h⟩
  | initDefault => exact .inr ⟨_, _, .initialised, respond_next.1 h⟩
  | load b =>
    exact (execLoad_next h).imp (fun h => ⟨_, h⟩) fun ⟨ha, h⟩ => ⟨_, _, .loaded b ha, h⟩
  | readBuf =>
    exact (execReadBuf_next h).imp (fun h => ⟨_, h⟩) fun ⟨hr, h⟩ => ⟨_, _, .same rfl hr, h⟩

variable {g : Config} {x y : Codec} {i : Instr}

/-- A command that ends OK leaves a packet (R32). -/
theorem Codec.Leaves.pv (h : Leaves g x i y) : y.pv = true := by
  cases h with
  | same _ ready | byteZero _ _ ready | wireTs _ _ _ ready => exact ready.1
  | destination o ready => exact (x.setDestination_pv o).trans ready.1
  | initialised | loaded => rfl

/-- A command that ends OK changes no byte it does not store to (R45). -/
theorem Codec.Leaves.read_of_not_stores (h : Leaves g x i y) {a : Nat} (ha : i.stores a = false) :
    y.buf.read a = x.buf.read a := by
  cases h with
  | same => rfl
  | byteZero b stores =>
    rw [stores, beq_eq_false_iff_ne] at ha
    exact Memory.read_write_other _ ha b
  | wireTs f r stores =>
    rw [stores, WireTs.covers_eq_false] at ha
    exact Memory.read_write64_other _ ha r
  | destination o => rw [Codec.setDestination_buf]
  | initialised | loaded => cases ha

/-- Whatever a command answers next, a byte it does not store to stays (R45). -/
theorem exec_read_of_not_stores (h : exec i s = .next t) {a : Nat} (ha : i.stores a = false) :
    t.cur.buf.read a = s.cur.buf.read a := by
  obtain ⟨e, rfl⟩ | ⟨y, d, hy, rfl⟩ := exec_leaves h
  · rw [State.cur_setCur, Codec.fail_buf]
  · rw [State.cur_setCur, Codec.ok_buf, hy.read_of_not_stores ha]

/-- No command but a constructor stores to bytes 1 to 15 (R27, R45). -/
theorem stores_header_eq_false (hc : i.constructs = false) {a : Nat} (h1 : 1 ≤ a) (h16 : a < 16) :
    i.stores a = false := by
  have zero : (a == 0) = false := by simp; omega
  have wire : ∀ f : WireTs, f.covers a = false := fun f =>
    (f.covers_eq_false a).2 (.inl (by cases f <;> simp [WireTs.offset] <;> omega))
  cases i with
  | setLi | setVn | setMode => exact zero
  | setRefTs | setOrgTs | setRcvTs | setXmtTs => exact wire _
  | initDefault | load => cases hc
  | _ => rfl

/-- A command that is neither INIT_DEFAULT nor LOAD is no constructor. -/
theorem constructs_eq_false_iff : i.constructs = false ↔ i ≠ .initDefault ∧ ∀ b, i ≠ .load b := by
  cases i <;> simp [Instr.constructs]

/-- A command that ends OK raised nothing. -/
theorem exec_ok_leaves (h : exec i s = .next t) (hs : t.cur.status = 0) :
    ∃ y d, Codec.Leaves s.cfg s.cur i y ∧ t = s.setCur (y.ok d) := by
  obtain ⟨e, rfl⟩ | h := exec_leaves h
  · simp at hs
  · exact h

/-- A command other than a constructor raises E_NO_PACKET while PV = 0 (R71). -/
theorem exec_noPacket (hc : i.constructs = false) (hp : s.cur.pv = false) :
    exec i s = raise .noPacket s := by
  obtain ⟨body, e⟩ := exec_withPacket hc s
  rw [e, withPacket_noPacket body hp]

/-- PV after a command: set where it was set before, or where the command ended OK (R32). -/
theorem exec_pv (h : exec i s = .next t) :
    t.cur.pv = true ↔ s.cur.pv = true ∨ t.cur.status = 0 := by
  obtain ⟨e, rfl⟩ | ⟨y, d, hy, rfl⟩ := exec_leaves h
  · simp
  · simp [hy.pv]

/-! The byte-0 commands, where they end OK (R26). -/

/-- The state in which a byte-0 setter has stored the byte `b` and ended OK. -/
def State.storeByteZero (s : State) (b : Byte) : State :=
  s.setCur ((s.cur.withBuf (s.cur.buf.write 0 b)).ok .nothing)

theorem State.cur_storeByteZero (b : Byte) :
    (s.storeByteZero b).cur = (s.cur.withBuf (s.cur.buf.write 0 b)).ok .nothing :=
  s.cur_setCur _

theorem State.read_zero_storeByteZero (b : Byte) : (s.storeByteZero b).cur.buf.read 0 = b := by
  rw [State.cur_storeByteZero, Codec.ok_buf, Codec.withBuf_buf, Memory.read_write_same]

theorem setSubField_ok {f : SubField} {v : BitVec f.width} (h : setSubField f v s = .next t)
    (hs : t.cur.status = 0) : t = s.storeByteZero (insert (s.cur.buf.read 0) f v) := by
  obtain rfl | ⟨_, rfl⟩ := setSubField_next h
  · simp at hs
  · rfl

theorem execSetMode_ok {v : BitVec 3} (h : execSetMode v s = .next t) (hs : t.cur.status = 0) :
    t = s.storeByteZero (insert (s.cur.buf.read 0) .mode v) := by
  obtain ⟨e, _, rfl⟩ | ⟨_, _, rfl⟩ := execSetMode_next h
  · simp at hs
  · rfl

theorem getSubField_ok {f : SubField} {kind : BitVec f.width → Dout}
    (h : getSubField f kind s = .next t) (hs : t.cur.status = 0) :
    ∃ d, t = s.setCur (s.cur.ok d) := by
  obtain rfl | ⟨_, h⟩ := getSubField_next h
  · simp at hs
  · exact ⟨_, h⟩

end Sys2Proof.Machine

namespace Sys2Proof
open Machine

/-- Settles O15: each setter stores one byte whose other bits are the old byte's, and each getter only
responds. -/
theorem byteZeroWritesPreserveTheRest : Obligations.ByteZeroWritesPreserveTheRest := by
  intro i s t h hs
  refine ⟨?li, ?vn, ?mode, fun hset => ?frame, fun hget => ?get⟩
  case li =>
    rintro ⟨v, rfl⟩
    rw [setSubField_ok (f := .li) h hs, State.read_zero_storeByteZero, insert_li]
    exact BitVec.extractLsb'_append_eq_right
  case vn =>
    rintro ⟨v, rfl⟩
    rw [setSubField_ok (f := .vn) h hs, State.read_zero_storeByteZero, insert_vn]
    refine ⟨?_, BitVec.extractLsb'_append_eq_right⟩
    rw [BitVec.extractLsb'_append_eq_of_le (by decide)]
    exact BitVec.extractLsb'_append_eq_left
  case mode =>
    rintro ⟨v, rfl⟩
    rw [execSetMode_ok h hs, State.read_zero_storeByteZero, insert_mode]
    exact BitVec.extractLsb'_append_eq_left
  case frame =>
    obtain ⟨b, rfl⟩ : ∃ b, t = s.storeByteZero b := by
      obtain ⟨v, rfl⟩ | ⟨v, rfl⟩ | ⟨v, rfl⟩ := hset
      exacts [⟨_, setSubField_ok (f := .li) h hs⟩, ⟨_, setSubField_ok (f := .vn) h hs⟩,
        ⟨_, execSetMode_ok h hs⟩]
    rw [State.cur_storeByteZero]
    exact ⟨fun a ha => Memory.read_write_other _ ha b, rfl, rfl, rfl, rfl, rfl,
      s.sameOthers_setCur _, s.sameOutside_setCur _⟩
  case get =>
    obtain ⟨d, rfl⟩ : ∃ d, t = s.setCur (s.cur.ok d) := by
      obtain rfl | rfl | rfl := hget <;> exact getSubField_ok h hs
    refine ⟨?_, s.sameOthers_setCur _, s.sameOutside_setCur _⟩
    rw [State.cur_setCur]
    exact ⟨rfl, rfl, rfl, rfl, rfl, rfl⟩

/-- Settles O18: bytes 1 to 15 are stored to by the two constructors alone. -/
theorem headerScalarsChangeOnlyByConstruction :
    Obligations.HeaderScalarsChangeOnlyByConstruction := by
  intro i s t h hinit hload a h1 h16
  have hc : i.constructs = false := constructs_eq_false_iff.2 ⟨hinit, hload⟩
  exact exec_read_of_not_stores h (stores_header_eq_false hc h1 h16)

/-- Settles O40: PV is set by ending OK alone, and from PV = 0 only the constructors can end OK. -/
theorem packetValidSetOnlyByConstructors : Obligations.PacketValidSetOnlyByConstructors := by
  intro i s t h
  have noPacket (hp : s.cur.pv = false) (hc : i.constructs = false) :
      t.cur.status = Err.noPacket.code := by
    obtain rfl := raise_next.1 ((exec_noPacket hc hp).symm.trans h)
    rw [State.cur_setCur, Codec.fail_status]
  refine ⟨fun hp => (exec_pv h).2 (.inl hp), fun hp => ?_,
    fun hp hinit hload => noPacket hp (constructs_eq_false_iff.2 ⟨hinit, hload⟩)⟩
  have constructor_of_ok (hs : t.cur.status = 0) : i = .initDefault ∨ ∃ b, i = .load b := by
    by_contra hn
    push Not at hn
    exact Err.code_ne_zero _ ((noPacket hp (constructs_eq_false_iff.2 hn)).symm.trans hs)
  rw [exec_pv h, hp]
  exact ⟨fun hs => have hs := hs.resolve_left Bool.false_ne_true; ⟨hs, constructor_of_ok hs⟩,
    fun hs => .inr hs.1⟩

end Sys2Proof
end

section
/-! SUPPORT. The invariant of a sound machine (R22, R31, R60, R193): it holds at reset, each update of
a codec or a Client keeps it, and so does every line of the exchange and every host operation. -/

namespace Sys2Proof.Machine

variable {g : Config} {x y : Codec} {s t : State}

/-! A codec. -/

theorem Err.code_toNat_le (e : Err) : e.code.toNat ≤ 7 := by cases e <;> decide

theorem Codec.sound_reset (g : Config) : Codec.reset.Sound g where
  memory := rfl
  inside _ h := by cases h
  length h := by cases h
  errlog := Nat.zero_le 7
  status := Nat.zero_le 7
  result h := by cases h

theorem Codec.Sound.fail (h : x.Sound g) (e : Err) : (x.fail e).Sound g where
  memory := h.memory
  inside := h.inside
  length := h.length
  errlog := by
    rw [Codec.fail_errlog]
    split
    exacts [e.code_toNat_le, h.errlog]
  status := e.code_toNat_le
  result h := by cases h

theorem Codec.Sound.ok (h : x.Sound g) (d : Dout) : (x.ok d).Sound g :=
  { h with status := Nat.zero_le 7, result := fun _ => rfl }

/-- Bytes written inside LEN keep the buffer canonical and inside LEN. -/
theorem Codec.Sound.writeBytes (h : x.Sound g) {off : Nat} {bs : List Byte}
    (hlen : off + bs.length ≤ x.len) : (x.withBuf (x.buf.writeBytes off bs)).Sound g :=
  { h with
    memory := Memory.wf_writeBytes h.memory off bs
    inside := fun c hc => (Memory.mem_writeBytes hc).elim
      (fun ⟨_, hlt⟩ => lt_of_lt_of_le hlt hlen) (h.inside c) }

theorem Codec.Sound.setDestination (h : x.Sound g) (o : Option Time) :
    (x.setDestination o).Sound g := by
  cases o <;> exact { h with }

/-- A packet made of bytes at the offsets below an accepted length is sound, DV cleared (R183). -/
theorem Codec.Sound.construct (h : x.Sound g) {n : Nat} {bs : List Byte}
    (hn : bufMin ≤ n ∧ n ≤ g.bufMax) (hbs : bs.length ≤ n) :
    Codec.Sound g { x with pv := true, len := n, buf := Memory.ofBytes bs, dv := false } :=
  { h with
    memory := Memory.wf_ofBytes bs
    inside := fun c hc => (Memory.mem_writeBytes hc).elim (fun ⟨_, hlt⟩ => by simp only; omega)
      (fun hc => by cases hc)
    length := fun _ => hn }

/-- What a command that ends OK leaves of a sound codec is sound. -/
theorem Codec.Leaves.sound {i : Instr} (hg : g.lawful) (hx : x.Sound g)
    (h : Codec.Leaves g x i y) : y.Sound g := by
  obtain ⟨_, _, hmax⟩ := hg
  cases h with
  | same => exact hx
  | byteZero b _ ready =>
    have first : 1 ≤ bufMin := by decide
    exact hx.writeBytes (bs := [b]) (first.trans ready.2)
  | wireTs f r _ ready =>
    have field : f.offset + 8 ≤ bufMin := by cases f <;> decide
    exact hx.writeBytes (bs := bytesOf64 r) (field.trans ready.2)
  | destination o => exact hx.setDestination o
  | initialised => exact hx.construct (bs := [defaultByte0]) ⟨le_rfl, hmax⟩ (by decide)
  | loaded b accepted => exact hx.construct ((lengthAccepted_iff g b.length).1 accepted) le_rfl

/-! A Client. -/

/-- TIMEOUT of a new Client, 15000 ms at a lawful TPS, is 15·TPS ticks (R191). -/
theorem Client.fresh_timeout_toInt (hg : g.lawful) (remote : Endpoint) :
    (Client.fresh g remote).timeout.toInt = 15 * g.tps := by
  obtain ⟨_, htps, _⟩ := hg
  have ticks : defaultTimeoutMs * g.tps / 1000 = 15 * g.tps := by
    rw [defaultTimeoutMs]; omega
  simp only [Client.fresh, ticks]
  rw [BitVec.toInt_ofNat', Int.bmod_eq_of_le] <;> omega

theorem Client.sound_fresh (hg : g.lawful) (remote : Endpoint) :
    (Client.fresh g remote).Sound g where
  timeout := by rw [Client.fresh_timeout_toInt hg]; omega
  status := Nat.zero_le 10
  result h := by cases h

/-- What a Client has sent is no part of its soundness. -/
theorem Client.Sound.withSent {z : Client} (h : z.Sound g) (sent : List Datagram) :
    Client.Sound g { z with sent := sent } := { h with }

/-! The machine. -/

/-- Soundness speaks of the parameters, the codecs and the Clients alone. -/
theorem State.Sound.of_same (h : s.Sound) (hg : t.cfg = s.cfg) (hc : t.codecs = s.codecs)
    (hl : t.clients = s.clients) : t.Sound := by
  obtain ⟨_, _, _, _, _, _⟩ := s
  obtain ⟨_, _, _, _, _, _⟩ := t
  obtain rfl := hg
  obtain rfl := hc
  obtain rfl := hl
  exact ⟨h.params, h.codecsForm, h.clientsForm, h.codecs, h.clients⟩

theorem State.sound_resetWith (hg : g.lawful) : (State.resetWith g).Sound where
  params := hg
  codecsForm := rfl
  clientsForm := rfl
  codecs _ := Codec.sound_reset g
  clients _ := Client.sound_fresh hg _

theorem State.Sound.putCodec (h : s.Sound) {k : Nat} (hx : x.Sound s.cfg) :
    (s.putCodec k x).Sound where
  params := h.params
  codecsForm := Sparse.wf_put k x h.codecsForm
  clientsForm := h.clientsForm
  codecs j := by
    by_cases hj : j = k
    · rw [hj, State.codec_putCodec_same]; exact hx
    · rw [State.codec_putCodec_other _ _ _ hj]; exact h.codecs j
  clients := h.clients

theorem State.Sound.putClient (h : s.Sound) {c : Nat} {z : Client} (hz : z.Sound s.cfg) :
    (s.putClient c z).Sound where
  params := h.params
  codecsForm := h.codecsForm
  clientsForm := Sparse.wf_put c z h.clientsForm
  codecs := h.codecs
  clients j := by
    by_cases hj : j = c
    · rw [hj, State.client_putClient_same]; exact hz
    · rw [State.client_putClient_other _ _ _ hj]; exact h.clients j

theorem exec_next_sound {i : Instr} (h : s.Sound) (he : exec i s = .next t) : t.Sound := by
  obtain ⟨e, rfl⟩ | ⟨y, d, hy, rfl⟩ := exec_leaves he
  · exact h.putCodec ((h.codecs _).fail e)
  · exact h.putCodec ((hy.sound h.params (h.codecs _)).ok d)

theorem runCommand_next_sound {c : Command} (h : s.Sound) (hr : runCommand c s = .next t) :
    t.Sound := by
  unfold runCommand at hr
  cases hd : decode c with
  | error e =>
    rw [hd] at hr
    obtain rfl := raise_next.1 hr
    exact h.putCodec ((h.codecs _).fail .illegal)
  | ok i =>
    rw [hd] at hr
    exact exec_next_sound h hr

theorem issue_next_sound {k : Nat} {c : Command} (h : s.Sound) (hi : issue k c s = .next t) :
    t.Sound := by
  have selected : (s.select k).Sound := h.of_same rfl rfl rfl
  exact runCommand_next_sound selected hi

/-! The host's side: each operation on a Client, and each end of an exchange. -/

theorem answer_sound (h : s.Sound) (c : Nat) (v : HostValue) : (answer c v s).Sound :=
  h.putClient { h.clients c with status := Nat.zero_le 10, result := fun _ => rfl }

theorem reject_sound (h : s.Sound) (c : Nat) {code : BitVec 4} (hcode : code.toNat ≤ 10) :
    (reject c code s).Sound :=
  h.putClient { h.clients c with status := hcode, result := fun h => by cases h }

theorem HostErr.code_toNat_le (e : HostErr) : e.code.toNat ≤ 10 := by cases e <;> decide

theorem setTimeout_sound (h : s.Sound) (c : Nat) (d : Duration) : (setTimeout c d s).Sound := by
  obtain ⟨_, e⟩ | ⟨long, e⟩ := setTimeout_cases c d s <;> rw [e]
  · exact reject_sound h c HostErr.range.code_toNat_le
  · have enough : (s.cfg.tps : Int) ≤ d.toInt * 1000 := by
      simpa [belowMinTimeout, minTimeoutMs] using long
    exact h.putClient ⟨enough, Nat.zero_le 10, fun _ => rfl⟩

theorem releaseClient_sound (h : s.Sound) (c : Nat) : (releaseClient c s).Sound :=
  h.putClient { h.clients c with status := Nat.zero_le 10, result := fun _ => rfl }

theorem createClient_sound (h : s.Sound) (c : Nat) (remote : Endpoint) :
    (createClient c remote s).Sound :=
  h.putClient (Client.sound_fresh h.params remote)

section
variable {e : Exchange}

theorem beginExchange_sound (h : s.Sound) : (beginExchange e s).Sound := by
  obtain ⟨_, eq⟩ | ⟨_, eq⟩ := beginExchange_cases e s <;> rw [eq]
  · exact reject_sound h _ HostErr.released.code_toNat_le
  · exact h.of_same rfl rfl rfl

theorem goTo_sound (h : s.Sound) (p : Phase) : (s.goTo e p).Sound := h.of_same rfl rfl rfl

theorem endOk_sound (h : s.Sound) (v : HostValue) : (endOk e v s).Sound := by
  have ended : State.Sound { s with run := none } := h.of_same rfl rfl rfl
  exact answer_sound ended _ v

theorem endError_sound (h : s.Sound) {code : BitVec 4} (hcode : code.toNat ≤ 10) :
    (endError e code s).Sound := by
  have ended : State.Sound { s with run := none } := h.of_same rfl rfl rfl
  exact reject_sound ended _ hcode

theorem sendDatagram_sound (h : s.Sound) (b : List Byte) : (sendDatagram e b s).Sound := by
  unfold sendDatagram
  cases e.channel with
  | sendFails => exact endError_sound h HostErr.transport.code_toNat_le
  | noReply | receiveFails | reply _ =>
    exact goTo_sound (h.putClient ((h.clients e.client).withSent _)) .receive

theorem receiveDatagram_sound (h : s.Sound) : (receiveDatagram e s).Sound := by
  unfold receiveDatagram
  cases e.channel with
  | reply r => exact goTo_sound h _
  | sendFails | noReply | receiveFails => exact endError_sound h HostErr.transport.code_toNat_le

/-! The continuations of the exchange, and a codec command that one of them follows. -/

variable {d : Dout}

theorem thenGo_next_sound {p : Phase} (h : s.Sound) (hn : thenGo e p d s = .next t) : t.Sound := by
  rw [thenGo_next.1 hn]
  exact goTo_sound h p

theorem thenSend_next_sound (h : s.Sound) (hn : thenSend e d s = .next t) : t.Sound := by
  obtain ⟨b, _, rfl⟩ := thenSend_next hn
  exact goTo_sound h _

theorem thenCopy_next_sound (h : s.Sound) (hn : thenCopy e d s = .next t) : t.Sound := by
  obtain ⟨o, _, rfl⟩ := thenCopy_next hn
  exact goTo_sound h _

theorem thenReturnOffset_next_sound (h : s.Sound) (hn : thenReturnOffset e d s = .next t) :
    t.Sound := by
  obtain ⟨v, _, rfl⟩ := thenReturnOffset_next hn
  exact endOk_sound h _

theorem thenReturnReply_next_sound (h : s.Sound) (hn : thenReturnReply e d s = .next t) :
    t.Sound := by
  obtain ⟨_, rfl⟩ | ⟨_, rfl⟩ := thenReturnReply_next hn
  exacts [goTo_sound h _, endOk_sound h _]

/-- A codec command of the exchange keeps the machine sound where its continuation does. -/
theorem call_next_sound {k : Nat} {c : Command} {cont : Dout → State → Result}
    (hc : ∀ {d u t}, u.Sound → cont d u = .next t → t.Sound) (h : s.Sound)
    (hn : call e k c cont s = .next t) : t.Sound := by
  obtain ⟨u, hi, ⟨_, rfl⟩ | ⟨_, d, _, hd⟩⟩ := call_next hn
  · have hu := issue_next_sound h hi
    exact endError_sound hu ((hu.codecs k).status.trans (by decide))
  · exact hc (issue_next_sound h hi) hd

theorem advance_next_sound (h : s.Sound) (hn : advance e s = .next t) : t.Sound := by
  unfold advance at hn
  cases hp : e.phase <;> rw [hp] at hn
  case initRequest | stampRequest | loadReply | copyOrigin =>
    exact call_next_sound thenGo_next_sound h hn
  case readRequest => exact call_next_sound thenSend_next_sound h hn
  case send b => cases hn; exact sendDatagram_sound h b
  case receive => cases hn; exact receiveDatagram_sound h
  case readOrigin => exact call_next_sound thenCopy_next_sound h hn
  case stampReply => exact call_next_sound thenReturnReply_next_sound h hn
  case readOffset => exact call_next_sound thenReturnOffset_next_sound h hn

end

theorem perform_next_sound {op : HostOp} (h : s.Sound) (hn : perform op s = .next t) :
    t.Sound := by
  cases op with
  | command k c => exact issue_next_sound h hn
  | resetCodec k => cases hn; exact h.putCodec (Codec.sound_reset _)
  | newClient c remote => cases hn; exact createClient_sound h c remote
  | getTimeout c => cases hn; exact answer_sound h c _
  | setTimeout c u => cases hn; exact setTimeout_sound h c u
  | query | queryDefault | getCorrectionOffset => cases hn; exact beginExchange_sound h
  | release c => cases hn; exact releaseClient_sound h c

end Sys2Proof.Machine

namespace Sys2Proof
open Machine

/-- Settles O51, by the three kinds of step: a line of the exchange, an idle step, a host operation. -/
theorem stepKeepsSound : Obligations.StepKeepsSound := by
  intro s t h hn
  obtain ⟨e, _, he⟩ | ⟨_, _, rfl⟩ | ⟨op, rest, _, _, hop⟩ := step_next hn
  · exact advance_next_sound h he
  · exact h
  · have taken : State.Sound { s with pending := rest } := h.of_same rfl rfl rfl
    exact perform_next_sound taken hop

/-- Settles O50: with lawful parameters, the reset codec and a new Client are sound. -/
theorem soundAtReset : Obligations.SoundAtReset :=
  ⟨fun _ hg => State.sound_resetWith hg, State.sound_resetWith (by decide)⟩

/-- Settles O1: an unlisted codec is in its reset state, and the host's reset puts one there. -/
theorem resetClearsPvErrlogAndDv : Obligations.ResetClearsPvErrlogAndDv := by
  refine ⟨fun g k => ⟨rfl, rfl, rfl⟩, fun s k rest hr hp => ?_⟩
  refine ⟨({ s with pending := rest } : State).putCodec k Codec.reset,
    step_of_pending hr hp, ?_, ?_, ?_, fun j hj => State.codec_putCodec_other _ _ _ hj⟩
  all_goals rw [State.codec_putCodec_same]; rfl

end Sys2Proof
end

section
/-! SUPPORT. What every command keeps of the instance it ran on (R45), and what running it again does
(R46): a command that ends OK ends OK again on the machine it leaves, with the same result, and writes
what is already there. -/

namespace Sys2Proof.Machine

/-! The writes column of R45, where a command ends OK. -/

section
variable {g : Config} {x y : Codec} {i : Instr}

/-- PV and LEN are written by the two constructors alone. -/
theorem Codec.Leaves.pv_len_of_not_constructs (h : Leaves g x i y) (hc : i.constructs = false) :
    y.pv = x.pv ∧ y.len = x.len := by
  cases h with
  | same | byteZero | wireTs => exact ⟨rfl, rfl⟩
  | destination o => exact ⟨x.setDestination_pv o, x.setDestination_len o⟩
  | initialised | loaded => cases hc

/-- A command that writes no destination is neither SET_DST_TS nor a constructor. -/
theorem Codec.Leaves.dv_dt_of_not_writesDestination (h : Leaves g x i y)
    (hd : i.writesDestination = false) : y.dv = x.dv ∧ y.dt = x.dt := by
  cases h with
  | same | byteZero | wireTs => exact ⟨rfl, rfl⟩
  | destination | initialised | loaded => cases hd

/-- A read command stores to no byte (R45). -/
theorem stores_of_reads (hr : i.reads = true) (a : Nat) : i.stores a = false := by
  cases i with
  | setLi | setVn | setMode | setRefTs | setOrgTs | setRcvTs | setXmtTs | setDstTs | initDefault
  | load => cases hr
  | _ => rfl

/-- A read leaves its instance as it was: it is no setter, for it stores to no byte. -/
theorem Codec.Leaves.eq_of_reads (h : Leaves g x i y) (hr : i.reads = true) : y = x := by
  cases h with
  | same => rfl
  | byteZero b stores =>
    have inside := stores 0
    rw [stores_of_reads hr] at inside
    cases inside
  | wireTs f r stores =>
    have inside := stores f.offset
    rw [stores_of_reads hr, eq_comm, WireTs.covers_eq_false] at inside
    omega
  | destination | initialised | loaded => cases hr

end

/-! Running a command again. -/

/-- The answer `r` is the machine `t` with each port, register and byte of the selected instance as it
was. BUF is compared byte by byte, so that no canonical form of its list is needed (log 4). -/
def EndsAsBefore (t : State) (r : Result) : Prop :=
  ∃ m : Memory, (∀ a, m.read a = t.cur.buf.read a) ∧ r = .next (t.setCur (t.cur.withBuf m))

/-- Run again on the machine it left by ending OK, the operation ends as before (R46). -/
def Repeats (op : State → Result) : Prop :=
  ∀ s t, op s = .next t → t.cur.status = 0 → EndsAsBefore t (op t)

/-- After the write `w` and a response, `w` again writes what is already there. -/
def Codec.Rewrites (w : Codec → Codec) : Prop :=
  ∀ x d, ∃ m : Memory, (∀ a, m.read a = (w x).buf.read a) ∧ w ((w x).ok d) = ((w x).ok d).withBuf m

/-! The writes of the commands. -/

theorem Codec.rewrites_id : Rewrites id := fun x _ => ⟨x.buf, fun _ => rfl, rfl⟩

theorem Codec.rewrites_setDestination (o : Option Time) : Rewrites fun x => x.setDestination o :=
  fun x _ => ⟨x.buf, by simp, by cases o <;> rfl⟩

theorem Codec.rewrites_initialised : Rewrites Codec.initialised :=
  fun x _ => ⟨x.initialised.buf, fun _ => rfl, rfl⟩

theorem Codec.rewrites_loaded (b : List Byte) : Rewrites fun x => x.loaded b :=
  fun x _ => ⟨(x.loaded b).buf, fun _ => rfl, rfl⟩

/-- The second of two inserts into one sub-field is the one that stays (R102). -/
theorem insert_insert (b : Byte) (f : SubField) (v w : BitVec f.width) :
    insert (insert b f v) f w = insert b f w := by
  refine BitVec.eq_of_getElem_eq fun n hn => ?_
  cases hm : f.mask[n] <;> simp [insert, hm]

theorem Codec.rewrites_subField (f : SubField) (v : BitVec f.width) :
    Rewrites fun x => x.withBuf (x.buf.write 0 (insert (x.buf.read 0) f v)) := by
  refine fun x d => ⟨_, fun a => ?_, rfl⟩
  by_cases ha : a = 0
  · subst ha; simp [insert_insert]
  · exact Memory.read_write_other _ ha _

theorem Codec.rewrites_write64 (off : Nat) (r : BitVec 64) :
    Rewrites fun x => x.withBuf (x.buf.write64 off r) := by
  refine fun x d => ⟨_, fun a => ?_, rfl⟩
  simp only [Codec.ok_buf, Codec.withBuf_buf, Memory.write64, Memory.read_writeBytes]
  split <;> rfl

/-! The shared operations. -/

section
variable {s t : State}

/-- The response to the same write with the same result ends as before. -/
theorem respond_endsAsBefore {d : Dout} {w : Codec → Codec} (hw : Codec.Rewrites w)
    (ht : t = s.setCur ((w s.cur).ok d)) : EndsAsBefore t (respond d (w t.cur) t) := by
  obtain rfl := ht
  obtain ⟨m, hm, e⟩ := hw s.cur d
  refine ⟨m, ?_, ?_⟩ <;> rw [State.cur_setCur]
  · exact hm
  · rw [e]; rfl

/-- A command under the PV check repeats where its write keeps a packet and neither the write nor the
ports have part in its result. -/
theorem withPacket_respond_repeats {w : Codec → Codec} (hw : Codec.Rewrites w)
    (hr : ∀ x, x.Ready → (w x).Ready) (d : Config → Codec → Dout)
    (hd : ∀ g x e, d g ((w x).ok e) = d g x) :
    Repeats fun s => withPacket s fun x => respond (d s.cfg x) (w x) s := by
  intro s t h hs
  obtain rfl | ⟨ready, ht⟩ := withPacket_respond_next h
  · simp at hs
  · have left : t.cur = (w s.cur).ok (d s.cfg s.cur) := by rw [ht, State.cur_setCur]
    have again : t.cur.Ready := by rw [left]; exact hr _ ready
    have result : d t.cfg t.cur = d s.cfg s.cur := by rw [left, ht, State.setCur_cfg, hd]
    simp only [withPacket_ready _ again, result]
    exact respond_endsAsBefore hw ht

/-- A command that only reads the packet repeats. -/
theorem readPacket_repeats (d : Config → Codec → Dout) (hd : ∀ g x e, d g (x.ok e) = d g x) :
    Repeats fun s => withPacket s fun x => respond (d s.cfg x) x s :=
  withPacket_respond_repeats Codec.rewrites_id (fun _ h => h) d hd

theorem getSubField_repeats (f : SubField) (kind : BitVec f.width → Dout) :
    Repeats (getSubField f kind) :=
  readPacket_repeats (fun _ x => kind (extract (x.buf.read 0) f)) fun _ _ _ => rfl

theorem getByte_repeats (off : Nat) : Repeats (getByte off) :=
  readPacket_repeats (fun _ x => .b8 (x.buf.read off)) fun _ _ _ => rfl

theorem getWord_repeats (off : Nat) : Repeats (getWord off) :=
  readPacket_repeats (fun _ x => .b32 (x.buf.read32 off)) fun _ _ _ => rfl

theorem getTimestamp_repeats (f : WireTs) : Repeats (getTimestamp f) :=
  readPacket_repeats (fun g x => .otime (decodeTime g.tps (x.rawTs f))) fun _ _ _ => rfl

theorem execGetDstTs_repeats : Repeats execGetDstTs :=
  readPacket_repeats (fun _ x => .otime x.destination) fun _ _ _ => rfl

theorem execReadBuf_repeats : Repeats execReadBuf :=
  readPacket_repeats (fun _ x => .bytes x.bytes) fun _ _ _ => rfl

theorem metric_repeats (formula : Config → FourTimes → Option Duration) :
    Repeats fun s => metric (formula s.cfg) s := by
  intro s t h hs
  obtain ⟨e, _, rfl⟩ | ⟨f, d, ready, hreq, hf, ht⟩ := metric_next h
  · simp at hs
  · have left : t.cur = s.cur.ok (.dur d) := by rw [ht, State.cur_setCur]
    have cfg : t.cfg = s.cfg := by rw [ht, State.setCur_cfg]
    have again : metric (formula t.cfg) t = respond (.dur d) t.cur t :=
      metric_result (by rw [left]; exact ready) (by rw [cfg, left]; exact hreq) (by rw [cfg, hf])
    simp only [again]
    exact respond_endsAsBefore Codec.rewrites_id ht

theorem setSubField_repeats (f : SubField) (v : BitVec f.width) : Repeats (setSubField f v) :=
  withPacket_respond_repeats (Codec.rewrites_subField f v) (fun _ h => h) (fun _ _ => .nothing)
    fun _ _ _ => rfl

theorem execSetMode_repeats (v : BitVec 3) : Repeats (execSetMode v) := by
  intro s t h hs
  obtain ⟨e, _, rfl⟩ | ⟨ready, allowed, ht⟩ := execSetMode_next h
  · simp at hs
  · have again : t.cur.Ready := by rw [ht, State.cur_setCur]; exact ready
    have cfg : t.cfg = s.cfg := by rw [ht, State.setCur_cfg]
    rw [execSetMode_ready v again, cfg, if_pos allowed]
    exact respond_endsAsBefore (Codec.rewrites_subField .mode v) ht

theorem setTimestamp_repeats (f : WireTs) (o : Option Time) : Repeats (setTimestamp f o) := by
  intro s t h hs
  obtain ⟨e, _, rfl⟩ | ⟨r, ready, hr, ht⟩ := setTimestamp_next h
  · simp at hs
  · have again : t.cur.Ready := by rw [ht, State.cur_setCur]; exact ready
    have encoded : encodeTime t.cfg o = some r := by rw [ht, State.setCur_cfg, hr]
    rw [setTimestamp_ready f again encoded]
    exact respond_endsAsBefore (Codec.rewrites_write64 f.offset r) ht

theorem execSetDstTs_repeats (o : Option Time) : Repeats (execSetDstTs o) :=
  withPacket_respond_repeats (Codec.rewrites_setDestination o)
    (fun x ⟨pv, len⟩ => ⟨(x.setDestination_pv o).trans pv, by rwa [Codec.setDestination_len]⟩)
    (fun _ _ => .nothing) fun _ _ _ => rfl

theorem execInitDefault_repeats : Repeats execInitDefault := fun _ _ h _ =>
  respond_endsAsBefore Codec.rewrites_initialised (respond_next.1 h)

theorem execLoad_repeats (b : List Byte) : Repeats (execLoad b) := by
  intro s t h hs
  obtain rfl | ⟨accepted, ht⟩ := execLoad_next h
  · simp at hs
  · have again : lengthAccepted t.cfg b.length = true := by rw [ht, State.setCur_cfg, accepted]
    rw [execLoad_accepted again]
    exact respond_endsAsBefore (Codec.rewrites_loaded b) ht

/-- Every command that ends OK ends as before when it is run again (R46). -/
theorem exec_repeats (i : Instr) : Repeats (exec i) := by
  cases i with
  | getLi | getVn | getMode => exact getSubField_repeats _ _
  | setLi v => exact setSubField_repeats .li v
  | setVn v => exact setSubField_repeats .vn v
  | setMode v => exact execSetMode_repeats v
  | getStratum | getPoll | getPrecision => exact getByte_repeats _
  | getRootDelay | getRootDispersion | getReferenceId => exact getWord_repeats _
  | getRefTs | getOrgTs | getRcvTs | getXmtTs => exact getTimestamp_repeats _
  | setRefTs o | setOrgTs o | setRcvTs o | setXmtTs o => exact setTimestamp_repeats _ o
  | getDstTs => exact execGetDstTs_repeats
  | setDstTs o => exact execSetDstTs_repeats o
  | getRtt => exact metric_repeats fun _ => roundTrip
  | getOffset => exact metric_repeats correctionOffset
  | initDefault => exact execInitDefault_repeats
  | load b => exact execLoad_repeats b
  | readBuf => exact execReadBuf_repeats

end

end Sys2Proof.Machine

namespace Sys2Proof
open Machine

/-- Settles O45: an error keeps the packet and the destination, and what a command leaves by ending OK
differs only where it writes. -/
theorem commandFrame : Obligations.CommandFrame := by
  intro i s t h
  refine ⟨fun a => exec_read_of_not_stores h, ?registers⟩
  case registers =>
    obtain ⟨e, rfl⟩ | ⟨y, d, hy, rfl⟩ := exec_leaves h <;> rw [State.cur_setCur]
    · exact ⟨fun _ => ⟨rfl, rfl⟩, fun _ => ⟨rfl, rfl⟩, s.sameOthers_setCur _,
        s.sameOutside_setCur _⟩
    · exact ⟨hy.pv_len_of_not_constructs, hy.dv_dt_of_not_writesDestination,
        s.sameOthers_setCur _, s.sameOutside_setCur _⟩

/-- Settles O46: a read leaves its instance as it was but for the ports, and every command ends as
before when it is run again. -/
theorem commandsAreRepeatable : Obligations.CommandsAreRepeatable := by
  intro i s t h hs
  refine ⟨fun hr => ?reads, ?again⟩
  case reads =>
    obtain ⟨y, d, hy, rfl⟩ := exec_ok_leaves h hs
    obtain rfl := hy.eq_of_reads hr
    rw [State.cur_setCur]
    exact ⟨rfl, rfl, rfl, rfl, rfl, rfl⟩
  case again =>
    obtain ⟨m, hm, e⟩ := exec_repeats i s t h hs
    refine ⟨_, e, ?_⟩
    rw [State.cur_setCur]
    exact ⟨hs, rfl, hm, rfl, rfl, rfl, fun _ => rfl, rfl⟩

end Sys2Proof
end

section
/-! SUPPORT. The command encoding (30_encoding.md): each opcode's row of the map R65, what a word that
fits the row looks like, and the decoder, the encoder and the assembler read through it. -/

namespace Sys2Proof

/-! A row of the map for each opcode. -/

/-- The OPC column of R65. -/
def Opcode.code : Opcode → BitVec 8
  | .getLi => 0x01 | .setLi => 0x02 | .getVn => 0x03
  | .setVn => 0x04 | .getMode => 0x05 | .setMode => 0x06
  | .getStratum => 0x08 | .getPoll => 0x09 | .getPrecision => 0x0A
  | .getRootDelay => 0x0B | .getRootDispersion => 0x0C | .getReferenceId => 0x0D
  | .getRefTs => 0x10 | .setRefTs => 0x11 | .getOrgTs => 0x12 | .setOrgTs => 0x13
  | .getRcvTs => 0x14 | .setRcvTs => 0x15 | .getXmtTs => 0x16 | .setXmtTs => 0x17
  | .getDstTs => 0x18 | .setDstTs => 0x19
  | .getRtt => 0x20 | .getOffset => 0x21
  | .initDefault => 0x30 | .load => 0x31 | .readBuf => 0x32

/-- The bits of IMM that R65 fixes to zero: IMM[2] of SET_LI, none of SET_VN and SET_MODE, all of a
command without an immediate. -/
def Opcode.immMask (op : Opcode) : BitVec 3 :=
  if op = .setLi then 0b100 else if op.usesImm then 0 else 0b111

/-- The row of R65 for an opcode. -/
def Opcode.row (op : Opcode) : OpRow :=
  ⟨0xFF#8 ++ (0x1F#5 ++ op.immMask), wordOf op.code 0, op.dinKind⟩

/-- The opcodes in the order of R65. -/
def opcodes : List Opcode :=
  [.getLi, .setLi, .getVn, .setVn, .getMode, .setMode, .getStratum, .getPoll, .getPrecision,
   .getRootDelay, .getRootDispersion, .getReferenceId, .getRefTs, .setRefTs, .getOrgTs, .setOrgTs,
   .getRcvTs, .setRcvTs, .getXmtTs, .setXmtTs, .getDstTs, .setDstTs, .getRtt, .getOffset,
   .initDefault, .load, .readBuf]

theorem mem_opcodes (op : Opcode) : op ∈ opcodes := by cases op <;> decide

theorem opRows_eq : opRows = opcodes.map Opcode.row := by decide

theorem opcode?_code (op : Opcode) : opcode? op.code = some op := by cases op <;> rfl

theorem Opcode.code_injective : Function.Injective Opcode.code := fun op op' h =>
  Option.some.inj ((opcode?_code op).symm.trans (h ▸ opcode?_code op'))

theorem opcode?_sound : ∀ opc, (opcode? opc).all (·.code == opc) = true := by decide

theorem opcode?_eq_some_iff {opc : BitVec 8} {op : Opcode} :
    opcode? opc = some op ↔ opc = op.code := by
  constructor
  · intro h
    have sound := opcode?_sound opc
    rw [h] at sound
    exact (beq_iff_eq.1 sound).symm
  · rintro rfl
    exact opcode?_code op

/-! The words that fit a row. -/

theorem word_ext_iff {w w' : CmdWord} :
    w = w' ↔ opcOf w = opcOf w' ∧ rsvOf w = rsvOf w' ∧ immOf w = immOf w' := by
  refine ⟨fun h => by simp [h], fun ⟨ho, hr, hi⟩ => ?_⟩
  rw [word_eq_fields w, word_eq_fields w', ho, hr, hi]

theorem word_eq_wordOf {w : CmdWord} (h : rsvOf w = 0) : w = wordOf (opcOf w) (immOf w) := by
  simp [word_ext_iff, h]

theorem opcOf_and (w m : CmdWord) : opcOf (w &&& m) = opcOf w &&& opcOf m := BitVec.extractLsb'_and
theorem rsvOf_and (w m : CmdWord) : rsvOf (w &&& m) = rsvOf w &&& rsvOf m := BitVec.extractLsb'_and
theorem immOf_and (w m : CmdWord) : immOf (w &&& m) = immOf w &&& immOf m := BitVec.extractLsb'_and

/-- The fixed bits of a row are OPC, RSV and the row's zeros of IMM. -/
theorem Opcode.mask_fields (op : Opcode) : opcOf op.row.mask = BitVec.allOnes 8 ∧
    rsvOf op.row.mask = BitVec.allOnes 5 ∧ immOf op.row.mask = op.immMask := by
  cases op <;> decide

theorem Opcode.row_fits_iff {op : Opcode} {w : CmdWord} : op.row.fits w = true ↔
    opcOf w = op.code ∧ rsvOf w = 0 ∧ immOf w &&& op.immMask = 0 := by
  obtain ⟨hopc, hrsv, himm⟩ := op.mask_fields
  have pattern : op.row.pattern = wordOf op.code 0 := rfl
  rw [OpRow.fits, beq_iff_eq, word_ext_iff, opcOf_and, rsvOf_and, immOf_and, hopc, hrsv, himm,
    pattern, opcOf_wordOf, rsvOf_wordOf, immOf_wordOf, BitVec.and_allOnes, BitVec.and_allOnes]

/-- The checks of R66.3 and R66.4 are the zeros of IMM in the row. -/
theorem Opcode.and_immMask_eq_zero_iff (op : Opcode) (imm : BitVec 3) : imm &&& op.immMask = 0 ↔
    ¬ (op.usesImm = false ∧ imm ≠ 0) ∧ ¬ (op = .setLi ∧ imm.getLsbD 2 = true) := by
  revert imm
  cases op <;> decide

/-- The decoder reads the row that fits the word (R65, R66). -/
theorem decode_eq_ok_iff {c : Command} {i : Instr} : decode c = .ok i ↔
    ∃ op : Opcode, op.row.fits c.word = true ∧ op.build (immOf c.word) c.din = some i := by
  simp only [Opcode.row_fits_iff, ← opcode?_eq_some_iff, Opcode.and_immMask_eq_zero_iff]
  unfold decode
  cases hop : opcode? (opcOf c.word) with
  | none => simp
  | some op =>
    simp only [Option.some.injEq, and_assoc, exists_eq_left']
    split_ifs with hrsv himm hleap
    · exact iff_of_false nofun fun h => hrsv h.1
    · exact iff_of_false nofun fun h => h.2.1 himm
    · exact iff_of_false nofun fun h => h.2.2.1 hleap
    · simp only [not_not.1 hrsv, himm, hleap, not_false_eq_true, true_and]
      cases op.build (immOf c.word) c.din <;> simp

/-! The operand. -/

theorem takeNothing_eq_some_iff {i j : Instr} {din : Din} :
    takeNothing i din = some j ↔ din = .nothing ∧ i = j := by
  cases din <;> simp [takeNothing]

theorem takeTime_eq_some_iff {f : Option Time → Instr} {j : Instr} {din : Din} :
    takeTime f din = some j ↔ ∃ p t, din = .otime p t ∧ f (optTime p t) = j := by
  cases din <;> simp [takeTime]

theorem takeBytes_eq_some_iff {f : List Byte → Instr} {j : Instr} {din : Din} :
    takeBytes f din = some j ↔ ∃ b, din = .bytes b ∧ f b = j := by
  cases din <;> simp [takeBytes]

theorem takeTime_ofTime (f : Option Time → Instr) (o : Option Time) :
    takeTime f (Din.ofTime o) = some (f o) := by cases o <;> rfl

theorem takeNothing_isSome (i : Instr) (din : Din) :
    (takeNothing i din).isSome = (DinKind.nothing == din.kind) := by cases din <;> rfl

theorem takeTime_isSome (f : Option Time → Instr) (din : Din) :
    (takeTime f din).isSome = (DinKind.otime == din.kind) := by cases din <;> rfl

theorem takeBytes_isSome (f : List Byte → Instr) (din : Din) :
    (takeBytes f din).isSome = (DinKind.bytes == din.kind) := by cases din <;> rfl

/-- A command takes every operand of the kind R65 lists, and no other (R66.5). -/
theorem Opcode.build_isSome (op : Opcode) (imm : BitVec 3) (din : Din) :
    (op.build imm din).isSome = (op.dinKind == din.kind) := by
  cases op with
  | setRefTs | setOrgTs | setRcvTs | setXmtTs | setDstTs => exact takeTime_isSome _ din
  | load => exact takeBytes_isSome _ din
  | _ => exact takeNothing_isSome _ din

/-- The two low bits of an immediate of SET_LI are all of it (R64, R66.4). -/
theorem setWidth_setWidth_of_leap : ∀ imm : BitVec 3, imm &&& Opcode.immMask .setLi = 0 →
    (imm.setWidth 2).setWidth 3 = imm := by decide

/-- The encoder gives back the fields a command was built from. -/
theorem Opcode.encode_of_build {op : Opcode} {imm : BitVec 3} {din : Din} {i : Instr}
    (hb : op.build imm din = some i) (hz : imm &&& op.immMask = 0) :
    encode i = ⟨wordOf op.code imm, din.normal⟩ := by
  cases op with
  | setLi =>
    obtain ⟨rfl, rfl⟩ := takeNothing_eq_some_iff.1 hb
    rw [encode, setWidth_setWidth_of_leap imm hz]
    rfl
  | setVn | setMode =>
    obtain ⟨rfl, rfl⟩ := takeNothing_eq_some_iff.1 hb
    rfl
  | setRefTs | setOrgTs | setRcvTs | setXmtTs | setDstTs =>
    obtain ⟨p, t, rfl, rfl⟩ := takeTime_eq_some_iff.1 hb
    obtain rfl : imm = 0 := (BitVec.and_allOnes (x := imm)).symm.trans hz
    rfl
  | load =>
    obtain ⟨b, rfl, rfl⟩ := takeBytes_eq_some_iff.1 hb
    obtain rfl : imm = 0 := (BitVec.and_allOnes (x := imm)).symm.trans hz
    rfl
  | _ =>
    obtain ⟨rfl, rfl⟩ := takeNothing_eq_some_iff.1 hb
    obtain rfl : imm = 0 := (BitVec.and_allOnes (x := imm)).symm.trans hz
    rfl

/-- The decoder gives back what a command is built as from its fields. -/
theorem Opcode.decode_of_build {op : Opcode} {imm : BitVec 3} {din : Din} {i : Instr}
    (hb : op.build imm din = some i) (hz : imm &&& op.immMask = 0) :
    decode ⟨wordOf op.code imm, din⟩ = .ok i :=
  decode_eq_ok_iff.2 ⟨op, Opcode.row_fits_iff.2 (by simp [hz]), by rw [immOf_wordOf, hb]⟩

/-- Settles O6, by the operand the command carries: an immediate, a time, bytes, or none. -/
theorem decodeOfEncode : Obligations.DecodeOfEncode := by
  intro i
  cases i with
  | setLi v =>
    have low : ∀ v : BitVec 2, v.setWidth 3 &&& Opcode.immMask .setLi = 0 ∧
        (v.setWidth 3).setWidth 2 = v := by decide
    obtain ⟨hz, hv⟩ := low v
    have built : Opcode.build .setLi (v.setWidth 3) .nothing = some (.setLi v) :=
      takeNothing_eq_some_iff.2 ⟨rfl, by rw [hv]⟩
    exact Opcode.decode_of_build (op := .setLi) built hz
  | setVn v => exact Opcode.decode_of_build (op := .setVn) rfl BitVec.and_zero
  | setMode v => exact Opcode.decode_of_build (op := .setMode) rfl BitVec.and_zero
  | setRefTs o => exact Opcode.decode_of_build (op := .setRefTs) (takeTime_ofTime _ o) rfl
  | setOrgTs o => exact Opcode.decode_of_build (op := .setOrgTs) (takeTime_ofTime _ o) rfl
  | setRcvTs o => exact Opcode.decode_of_build (op := .setRcvTs) (takeTime_ofTime _ o) rfl
  | setXmtTs o => exact Opcode.decode_of_build (op := .setXmtTs) (takeTime_ofTime _ o) rfl
  | setDstTs o => exact Opcode.decode_of_build (op := .setDstTs) (takeTime_ofTime _ o) rfl
  | load b => exact Opcode.decode_of_build (op := .load) rfl rfl
  | _ => rfl

/-- Settles O7: the word fits a row, so it is the row's fields, which the encoder gives back. -/
theorem decodedCommandIsItsEncoding : Obligations.DecodedCommandIsItsEncoding := by
  intro c i h
  obtain ⟨op, fits, built⟩ := decode_eq_ok_iff.1 h
  obtain ⟨hopc, hrsv, hz⟩ := Opcode.row_fits_iff.1 fits
  rw [Opcode.encode_of_build built hz, ← hopc, ← word_eq_wordOf hrsv]

/-- Settles O8: the map is the rows of the opcodes, and a command is built exactly from an operand of
the row's kind. -/
theorem legalExactlyByTheMap : Obligations.LegalExactlyByTheMap := by
  intro c
  have legal : c.wf = true ↔ ∃ op : Opcode, op.row.fits c.word = true ∧ op.dinKind = c.din.kind := by
    simp [Command.wf, opRows_eq, mem_opcodes, Opcode.row]
  have built (op : Opcode) :
      (∃ i, op.build (immOf c.word) c.din = some i) ↔ op.dinKind = c.din.kind := by
    rw [← Option.isSome_iff_exists, Opcode.build_isSome, beq_iff_eq]
  simp only [decode_eq_ok_iff, legal, ← built]
  exact ⟨fun ⟨i, op, hf, hb⟩ => ⟨op, hf, i, hb⟩, fun ⟨op, hf, i, hb⟩ => ⟨i, op, hf, hb⟩⟩

/-- Settles O9: a word that fits the rows of two opcodes has both codes, and no two opcodes share one. -/
theorem mapRowsAreDisjoint : Obligations.MapRowsAreDisjoint := by
  have distinct : opcodes.Pairwise (· ≠ ·) := by decide
  unfold Obligations.MapRowsAreDisjoint
  rw [opRows_eq, List.pairwise_map]
  refine distinct.imp fun {op op'} hne w ⟨hw, hw'⟩ => hne (Opcode.code_injective ?_)
  exact (Opcode.row_fits_iff.1 hw).1.symm.trans (Opcode.row_fits_iff.1 hw').1

end Sys2Proof

namespace Sys2Proof.Machine

/-! The step that takes a command. -/

section
variable {s : State} {c : Command}

theorem runCommand_of_decode {i : Instr} (h : decode c = .ok i) : runCommand c s = exec i s := by
  rw [runCommand, h]

theorem runCommand_illegal {e : DecodeError} (h : decode c = .error e) :
    runCommand c s = raise .illegal s := by rw [runCommand, h]

/-- A step that takes a command runs it on the codec it was issued to (R71). -/
theorem step_command {k : Nat} {rest : List HostOp} (hr : s.run = none)
    (hp : s.pending = .command k c :: rest) :
    step s = runCommand c (({ s with pending := rest } : State).select k) :=
  step_of_pending hr hp

theorem decodeTableWord_eq_some_iff {nbits w : Nat} {i : Instr} :
    decodeTableWord nbits w = some i ↔
      decode (tableCommand (BitVec.ofNat cmdWidth (w % 2 ^ nbits))) = .ok i := by
  unfold decodeTableWord
  cases decode (tableCommand (BitVec.ofNat cmdWidth (w % 2 ^ nbits))) <;> simp

end

/-! The assembler's immediates (R64, R69). -/

section
variable {g : Config} {op : Opcode} {n : Int}

theorem immediate_of_range {w : Nat} (h0 : 0 ≤ n) (hw : n < 2 ^ w) :
    immediate w n = some (BitVec.ofInt 3 n) := if_pos ⟨h0, hw⟩

theorem immediate_of_not_range {w : Nat} (h : n < 0 ∨ 2 ^ w ≤ n) : immediate w n = none :=
  if_neg (by omega)

/-- An immediate of the width a command takes is zero where the command's row fixes it so. -/
theorem immediate_and_immMask (hu : op.usesImm = true) (h0 : 0 ≤ n)
    (hn : n < 2 ^ Opcode.immWidth op) :
    n < 8 ∧ BitVec.ofInt 3 n &&& op.immMask = 0 := by
  cases op with
  | setLi =>
    have h4 : n < 4 := hn
    exact ⟨by omega, by interval_cases n <;> rfl⟩
  | setVn | setMode => exact ⟨hn, BitVec.and_zero⟩
  | _ => cases hu

/-- A word whose immediate is given as a number (R63). -/
theorem wordOf_ofInt (opc : BitVec 8) (h0 : 0 ≤ n) (h8 : n < 8) :
    wordOf opc (BitVec.ofInt 3 n) = BitVec.ofInt 16 (256 * opc.toNat + n) := by
  obtain ⟨m, rfl⟩ := Int.eq_ofNat_of_zero_le h0
  have low : (0#5 ++ BitVec.ofNat 3 m : BitVec 8).toNat = m := by
    rw [BitVec.toNat_append, BitVec.toNat_ofNat]
    simpa using h8
  have cast : (256 * opc.toNat + m : Int) = (256 * opc.toNat + m : Nat) := by push_cast; rfl
  refine BitVec.eq_of_toNat_eq ?_
  rw [cast, BitVec.ofInt_natCast, BitVec.ofInt_natCast, BitVec.toNat_ofNat, wordOf,
    BitVec.toNat_append, low, ← Nat.shiftLeft_add_eq_or_of_lt (by omega), Nat.shiftLeft_eq]
  omega

/-- A command with an immediate in its range assembles to the word of its OPC and the immediate. -/
theorem assemble_imm (hu : op.usesImm = true) (h0 : 0 ≤ n) (hn : n < 2 ^ Opcode.immWidth op) :
    assemble g (.command op (.imm n)) =
      some [⟨BitVec.ofInt 16 (256 * op.code.toNat + n), .nothing⟩] := by
  obtain ⟨h8, hz⟩ := immediate_and_immMask hu h0 hn
  have kind : op.dinKind = .nothing := by
    cases op with
    | setLi | setVn | setMode => rfl
    | _ => cases hu
  obtain ⟨i, hi⟩ : ∃ i, op.build (BitVec.ofInt 3 n) .nothing = some i := by
    rw [← Option.isSome_iff_exists, Opcode.build_isSome, kind]; rfl
  simp only [assemble, assembleCommand, hu, if_true, immediate_of_range h0 hn, Option.bind_some, hi,
    Option.map_some, Opcode.encode_of_build hi hz, wordOf_ofInt op.code h0 h8, Din.normal]

theorem assemble_imm_of_not_range (hn : n < 0 ∨ 2 ^ Opcode.immWidth op ≤ n) :
    assemble g (.command op (.imm n)) = none := by
  simp [assemble, assembleCommand, immediate_of_not_range hn]

theorem assemble_requestDefault {t : TsLit} {o : Option Time} (h : t.operand g = some o) :
    assemble g (.requestDefault t) = some [encode .initDefault, encode (.setOrgTs o)] := by
  rw [assemble, h]
  rfl

end

end Sys2Proof.Machine

namespace Sys2Proof
open Machine

/-- Settles O2: the step that takes a command runs what it decodes to, or raises E_ILLEGAL. -/
theorem stepRunsDecodedCommand : Obligations.StepRunsDecodedCommand := by
  intro s k c rest hr hp
  exact ⟨fun i hd => (step_command hr hp).trans (runCommand_of_decode hd),
    fun e hd => (step_command hr hp).trans (runCommand_illegal hd)⟩

/-- Settles O4: the table word stands first in the line, for the selected codec. -/
theorem tableWordIsRunNext : Obligations.TableWordIsRunNext := by
  intro s w i h
  have taken := step_command (s := s.withFetchWord 16 w) rfl rfl
  exact taken.trans (runCommand_of_decode (decodeTableWord_eq_some_iff.1 h))

/-- Settles O10: the decoder computes on each word. -/
theorem specWordsDecode : Obligations.SpecWordsDecode :=
  ⟨rfl, rfl, rfl, rfl, rfl, rfl, rfl, rfl, rfl⟩

/-- Settles O60, by the three commands with an immediate, in range and outside, and REQUEST_DEFAULT. -/
theorem assemblerWords : Obligations.AssemblerWords := by
  intro g
  have li : ∀ n, 0 ≤ n → n ≤ 3 →
      assemble g (.command .setLi (.imm n)) = some [⟨BitVec.ofInt 16 (0x0200 + n), .nothing⟩] :=
    fun n h0 h3 => assemble_imm rfl h0 (Int.lt_add_one_of_le h3)
  have vn : ∀ n, 0 ≤ n → n ≤ 7 →
      assemble g (.command .setVn (.imm n)) = some [⟨BitVec.ofInt 16 (0x0400 + n), .nothing⟩] :=
    fun n h0 h7 => assemble_imm rfl h0 (Int.lt_add_one_of_le h7)
  have mode : ∀ n, 0 ≤ n → n ≤ 7 →
      assemble g (.command .setMode (.imm n)) = some [⟨BitVec.ofInt 16 (0x0600 + n), .nothing⟩] :=
    fun n h0 h7 => assemble_imm rfl h0 (Int.lt_add_one_of_le h7)
  exact ⟨vn 4 (by decide) (by decide), mode 3 (by decide) (by decide), li 3 (by decide) (by decide),
    li, fun n h0 h7 => ⟨vn n h0 h7, mode n h0 h7⟩,
    fun n hn => assemble_imm_of_not_range hn,
    fun n hn => ⟨assemble_imm_of_not_range hn, assemble_imm_of_not_range hn⟩,
    fun t o ho => assemble_requestDefault ho⟩

end Sys2Proof
end

section
/-! SUPPORT. A sound machine never stops (R66, R217, R237): everything a decoded command can answer,
the continuations of the exchange on a result of the kind they expect, and a step of each kind. -/

namespace Sys2Proof.Machine

variable {s : State} {k : DoutKind}

/-! What a decoded command can answer. -/

/-- Everything a command can answer whose result is of a kind: an error, a result of that kind, or, on
a packet shorter than 48 bytes, the fault of log 11. -/
inductive EndsWith (s : State) (k : DoutKind) (r : Result) : Prop
  | raised (e : Err) (eq : r = raise e s)
  | responded (d : Dout) (x : Codec) (kind : d.kind = k) (eq : r = respond d x s)
  | short (pv : s.cur.pv = true) (len : s.cur.len < bufMin) (eq : r = .fault .shortPacket)

theorem withPacket_endsWith {body : Codec → Result} (h : EndsWith s k (body s.cur)) :
    EndsWith s k (withPacket s body) := by
  obtain ⟨_, e⟩ | ⟨pv, len, e⟩ | ⟨_, e⟩ := withPacket_cases (s := s) body
  · exact .raised _ e
  · exact .short pv len e
  · rwa [e]

/-- A command that only answers under the PV check, or only writes, ends with its result. -/
theorem withPacket_respond_endsWith {d : Codec → Dout} {x : Codec → Codec}
    (hd : ∀ y, (d y).kind = k) : EndsWith s k (withPacket s fun y => respond (d y) (x y) s) :=
  withPacket_endsWith (.responded _ _ (hd _) rfl)

theorem getSubField_endsWith (f : SubField) {kind : BitVec f.width → Dout}
    (hk : ∀ v, (kind v).kind = k) : EndsWith s k (getSubField f kind s) :=
  withPacket_respond_endsWith (x := id) fun _ => hk _

theorem getByte_endsWith (off : Nat) : EndsWith s .b8 (getByte off s) :=
  withPacket_respond_endsWith (x := id) fun _ => rfl

theorem getWord_endsWith (off : Nat) : EndsWith s .b32 (getWord off s) :=
  withPacket_respond_endsWith (x := id) fun _ => rfl

theorem getTimestamp_endsWith (f : WireTs) : EndsWith s .otime (getTimestamp f s) :=
  withPacket_respond_endsWith (x := id) fun _ => rfl

theorem execGetDstTs_endsWith : EndsWith s .otime (execGetDstTs s) :=
  withPacket_respond_endsWith (x := id) fun _ => rfl

theorem execReadBuf_endsWith : EndsWith s .bytes (execReadBuf s) :=
  withPacket_respond_endsWith (x := id) fun _ => rfl

theorem execSetDstTs_endsWith (o : Option Time) : EndsWith s .nothing (execSetDstTs o s) :=
  withPacket_respond_endsWith (x := fun y => y.setDestination o) fun _ => rfl

theorem setSubField_endsWith (f : SubField) (v : BitVec f.width) :
    EndsWith s .nothing (setSubField f v s) :=
  withPacket_respond_endsWith
    (x := fun y => y.withBuf (y.buf.write 0 (insert (y.buf.read 0) f v))) fun _ => rfl

theorem execSetMode_endsWith (v : BitVec 3) : EndsWith s .nothing (execSetMode v s) := by
  refine withPacket_endsWith ?_
  by_cases allowed : modeAllowed s.cfg v = true
  · simpa only [if_pos allowed] using setSubField_endsWith .mode v
  · exact .raised .modeDomain (if_neg allowed)

theorem setTimestamp_endsWith (f : WireTs) (o : Option Time) :
    EndsWith s .nothing (setTimestamp f o s) := by
  refine withPacket_endsWith ?_
  cases encodeTime s.cfg o with
  | none => exact .raised .tsRange rfl
  | some r => exact .responded _ _ rfl rfl

theorem metric_endsWith (formula : FourTimes → Option Duration) :
    EndsWith s .dur (metric formula s) := by
  refine withPacket_endsWith ?_
  cases required s.cfg s.cur with
  | none => exact .raised .state rfl
  | some f =>
    cases hf : formula f with
    | none => exact .raised .overflow (by simp only [hf])
    | some d => exact .responded (.dur d) s.cur rfl (by simp only [hf])

theorem execLoad_endsWith (b : List Byte) : EndsWith s .nothing (execLoad b s) := by
  by_cases accepted : lengthAccepted s.cfg b.length = true
  · exact .responded .nothing (s.cur.loaded b) rfl (if_pos accepted)
  · exact .raised .size (if_neg accepted)

/-- A decoded command ends with an error, or with a result of its kind (R202), but on a packet shorter
than 48 bytes. -/
theorem exec_endsWith (i : Instr) (s : State) : EndsWith s i.doutKind (exec i s) := by
  cases i with
  | getLi | getVn | getMode => exact getSubField_endsWith _ fun _ => rfl
  | setLi v => exact setSubField_endsWith .li v
  | setVn v => exact setSubField_endsWith .vn v
  | setMode v => exact execSetMode_endsWith v
  | getStratum | getPoll | getPrecision => exact getByte_endsWith _
  | getRootDelay | getRootDispersion | getReferenceId => exact getWord_endsWith _
  | getRefTs | getOrgTs | getRcvTs | getXmtTs => exact getTimestamp_endsWith _
  | setRefTs o | setOrgTs o | setRcvTs o | setXmtTs o => exact setTimestamp_endsWith _ o
  | getDstTs => exact execGetDstTs_endsWith
  | setDstTs o => exact execSetDstTs_endsWith o
  | getRtt | getOffset => exact metric_endsWith _
  | initDefault => exact .responded _ _ rfl rfl
  | load b => exact execLoad_endsWith b
  | readBuf => exact execReadBuf_endsWith

/-- On a sound machine a decoded command ends with an error, or with a result of its kind. -/
theorem State.Sound.exec_cases (h : s.Sound) (i : Instr) :
    (∃ e, exec i s = raise e s) ∨ ∃ d x, d.kind = i.doutKind ∧ exec i s = respond d x s := by
  obtain ⟨e, eq⟩ | ⟨d, x, kind, eq⟩ | ⟨pv, len, _⟩ := exec_endsWith i s
  · exact .inl ⟨e, eq⟩
  · exact .inr ⟨d, x, kind, eq⟩
  · exact absurd ((h.codecs s.sel).length pv).1 (Nat.not_le.2 len)

/-! No operation stops. -/

/-- With nothing in progress and nothing issued, a step changes nothing (R224). -/
theorem step_idle (hr : s.run = none) (hp : s.pending = []) : step s = .next s := by
  rw [step, stepOnce, hr, hp]

/-- An operation that answers a next state. -/
def Goes (r : Result) : Prop := ∃ t, r = .next t

theorem State.Sound.select (h : s.Sound) (j : Nat) : (s.select j).Sound := h.of_same rfl rfl rfl

theorem State.Sound.issue_goes (h : s.Sound) (j : Nat) (c : Command) : Goes (issue j c s) := by
  cases hd : decode c with
  | error e => exact ⟨_, runCommand_illegal hd⟩
  | ok i =>
    rw [issue, runCommand_of_decode hd]
    obtain ⟨e, eq⟩ | ⟨d, x, _, eq⟩ := (h.select j).exec_cases i
    exacts [⟨_, eq⟩, ⟨_, eq⟩]

/-! The exchange: a command that its continuation expects the result of. -/

section
variable {x : Exchange} {d : Dout}

theorem thenSend_goes (hd : d.kind = .bytes) : Goes (thenSend x d s) := by
  cases d with
  | bytes b => exact ⟨_, rfl⟩
  | _ => cases hd

theorem thenCopy_goes (hd : d.kind = .otime) : Goes (thenCopy x d s) := by
  cases d with
  | otime o => exact ⟨_, rfl⟩
  | _ => cases hd

theorem thenReturnOffset_goes (hd : d.kind = .dur) : Goes (thenReturnOffset x d s) := by
  cases d with
  | dur v => exact ⟨_, rfl⟩
  | _ => cases hd

theorem thenReturnReply_goes : Goes (thenReturnReply x d s) := by
  unfold thenReturnReply
  split
  exacts [⟨_, rfl⟩, ⟨_, rfl⟩]

/-- A codec command of the exchange goes on where its continuation takes every result of the command's
kind. -/
theorem State.Sound.call_goes (h : s.Sound) (j : Nat) (i : Instr) {cont : Dout → State → Result}
    (hc : ∀ {d t}, d.kind = i.doutKind → Goes (cont d t)) : Goes (call x j (encode i) cont s) := by
  have decoded := decodeOfEncode i
  obtain ⟨e, eq⟩ | ⟨d, y, kind, eq⟩ := (h.select j).exec_cases i
  · exact ⟨_, call_error decoded eq⟩
  · rw [call_ok decoded eq]
    exact hc kind

theorem State.Sound.advance_goes (h : s.Sound) (x : Exchange) : Goes (advance x s) := by
  unfold advance
  cases x.phase with
  | initRequest => exact h.call_goes x.req .initDefault fun _ => ⟨_, rfl⟩
  | stampRequest => exact h.call_goes x.req (.setOrgTs (some x.nowRequest)) fun _ => ⟨_, rfl⟩
  | readRequest => exact h.call_goes x.req .readBuf thenSend_goes
  | send b => exact ⟨_, rfl⟩
  | receive => exact ⟨_, rfl⟩
  | loadReply r => exact h.call_goes x.rsp (.load r) fun _ => ⟨_, rfl⟩
  | readOrigin => exact h.call_goes x.req .getOrgTs thenCopy_goes
  | copyOrigin o => exact h.call_goes x.rsp (.setOrgTs o) fun _ => ⟨_, rfl⟩
  | stampReply =>
    exact h.call_goes x.rsp (.setDstTs (some x.nowReceipt)) fun _ => thenReturnReply_goes
  | readOffset => exact h.call_goes x.rsp .getOffset thenReturnOffset_goes

end

theorem State.Sound.perform_goes (h : s.Sound) (op : HostOp) : Goes (perform op s) := by
  cases op with
  | command j c => exact h.issue_goes j c
  | _ => exact ⟨_, rfl⟩

end Sys2Proof.Machine

namespace Sys2Proof
open Machine

/-- Settles O52, by the three kinds of step: a line of the exchange, a host operation, an idle step. -/
theorem soundMachineNeverStops : Obligations.SoundMachineNeverStops := by
  intro s h
  obtain hr | ⟨x, hr⟩ := Option.eq_none_or_eq_some s.run
  · cases hp : s.pending with
    | nil => exact ⟨s, step_idle hr hp⟩
    | cons op rest =>
      have taken : State.Sound { s with pending := rest } := h.of_same rfl rfl rfl
      rw [step_of_pending hr hp]
      exact taken.perform_goes op
  · rw [step_of_run hr]
    exact h.advance_goes x

end Sys2Proof
end

section
/-! SUPPORT. The sub-fields of byte 0 (40_bitfields.md): EXTRACT and INSERT by bit position, from which
the laws of R102 follow, and what the byte-0 commands answer on a packet (R103 to R108). -/

namespace Sys2Proof.Machine

/-! Where the sub-fields lie (R100). -/

theorem SubField.shift_add_width_le (f : SubField) : f.shift + f.width ≤ 8 := by cases f <;> decide

/-- Distinct sub-fields lie one above the other. -/
theorem SubField.disjoint {f g : SubField} (h : f ≠ g) :
    f.shift + f.width ≤ g.shift ∨ g.shift + g.width ≤ f.shift := by
  cases f <;> cases g <;> simp [SubField.shift, SubField.width] at h ⊢

/-- MASK_F has exactly the bits of the sub-field. -/
theorem SubField.getElem_mask (f : SubField) : ∀ n (hn : n < 8),
    f.mask[n] = decide (f.shift ≤ n ∧ n < f.shift + f.width) := by
  cases f <;> decide

section
variable (b : Byte) (f g : SubField) (v : BitVec f.width) (w : BitVec g.width)

/-! EXTRACT and INSERT (R101), bit by bit. -/

/-- INSERT puts the value's bits in the sub-field and keeps every other bit. -/
theorem getElem_insert {n : Nat} (hn : n < 8) : (insert b f v)[n] =
    if f.shift ≤ n ∧ n < f.shift + f.width then v.getLsbD (n - f.shift) else b[n] := by
  by_cases hf : f.shift ≤ n ∧ n < f.shift + f.width <;> simp [insert, f.getElem_mask, hf]

/-- EXTRACT is the bit range of the sub-field. -/
theorem extract_eq_extractLsb' : extract b f = b.extractLsb' f.shift f.width := by
  cases f
  exacts [extract_li b, extract_vn b, extract_mode b]

theorem getElem_extract {i : Nat} (hi : i < f.width) :
    (extract b f)[i] = b[f.shift + i]'(by have := f.shift_add_width_le; omega) := by
  simp [extract_eq_extractLsb', ← BitVec.getLsbD_eq_getElem, hi]

/-! The laws of R102. That the last insert wins is `insert_insert`. -/

@[simp] theorem extract_insert_same : extract (insert b f v) f = v := by
  refine BitVec.eq_of_getElem_eq fun i hi => ?_
  rw [getElem_extract, getElem_insert, if_pos ⟨by omega, by omega⟩, Nat.add_sub_cancel_left,
    BitVec.getLsbD_eq_getElem]

variable {f g} in
theorem extract_insert_other (h : f ≠ g) : extract (insert b f v) g = extract b g := by
  have apart := SubField.disjoint h
  refine BitVec.eq_of_getElem_eq fun i hi => ?_
  rw [getElem_extract, getElem_insert, if_neg (by omega), getElem_extract]

theorem insert_extract : insert b f (extract b f) = b := by
  refine BitVec.eq_of_getElem_eq fun n hn => ?_
  rw [getElem_insert]
  split
  · rw [BitVec.getLsbD_eq_getElem (by omega), getElem_extract]
    congr 1; omega
  · rfl

variable {f g} in
/-- Inserts into distinct sub-fields commute: no bit lies in both. -/
theorem insert_comm (h : f ≠ g) : insert (insert b f v) g w = insert (insert b g w) f v := by
  have apart := SubField.disjoint h
  refine BitVec.eq_of_getElem_eq fun n hn => ?_
  simp only [getElem_insert]
  by_cases hf : f.shift ≤ n ∧ n < f.shift + f.width
  · simp [hf, show ¬ (g.shift ≤ n ∧ n < g.shift + g.width) by omega]
  · simp [hf]

/-- A byte is its three sub-fields. -/
theorem eq_subFields : ∀ b : Byte, b = (extract b .li).setWidth 8 <<< 6 |||
    (extract b .vn).setWidth 8 <<< 3 ||| (extract b .mode).setWidth 8 := by decide

end

/-! The getters and setters of byte 0 on a packet. -/

/-- The command that reads a sub-field (R103, R105, R107). -/
def SubField.getter : SubField → Instr
  | .li => .getLi
  | .vn => .getVn
  | .mode => .getMode

/-- The result that carries a sub-field's value (R62). -/
def SubField.result : (f : SubField) → BitVec f.width → Dout
  | .li => .b2
  | .vn => .b3
  | .mode => .b3

section
variable {s : State} (h : s.cur.Ready) {f g : SubField} {d : Dout}
include h

theorem exec_getter_ready (f : SubField) : exec f.getter s =
    .next (s.setCur (s.cur.ok (f.result (extract (s.cur.buf.read 0) f)))) := by
  cases f <;> exact getSubField_ready _ _ h

/-- On a packet a getter answers its sub-field of BUF[0] and nothing else. -/
theorem answers_getter_iff :
    Answers f.getter s d ↔ d = f.result (extract (s.cur.buf.read 0) f) := by
  rw [Answers, exec_getter_ready h]
  constructor
  · rintro ⟨t, ht, -, hd⟩
    obtain rfl := Host.Outcome.next.inj ht
    simpa using hd.symm
  · rintro rfl
    exact ⟨_, rfl, by simp⟩

theorem execSetMode_allowed {v : BitVec 3} (hv : s.cfg.modeStrict = false ∨ v = 3 ∨ v = 4) :
    execSetMode v s = .next (s.storeByteZero (insert (s.cur.buf.read 0) .mode v)) := by
  rw [execSetMode_ready v h, if_pos ((modeAllowed_iff _ v).2 hv)]
  rfl

theorem execSetMode_refused {v : BitVec 3} (hv : s.cfg.modeStrict = true ∧ v ≠ 3 ∧ v ≠ 4) :
    execSetMode v s = raise .modeDomain s := by
  obtain ⟨strict, h3, h4⟩ := hv
  have refused := mt (modeAllowed_iff s.cfg v).1 (not_or.2 ⟨by simp [strict], not_or.2 ⟨h3, h4⟩⟩)
  rw [execSetMode_ready v h, if_neg refused]

theorem State.ready_storeByteZero (b : Byte) : (s.storeByteZero b).cur.Ready := by
  rw [State.cur_storeByteZero]
  exact h

/-- After a value is stored in a sub-field, its getter answers that value. -/
theorem answers_getter_storeByteZero_same (v : BitVec f.width) :
    Answers f.getter (s.storeByteZero (insert (s.cur.buf.read 0) f v)) (f.result v) := by
  rw [answers_getter_iff (s.ready_storeByteZero h _), State.read_zero_storeByteZero,
    extract_insert_same]

/-- After a value is stored in a sub-field, the getter of another one answers as before. -/
theorem answers_getter_storeByteZero_other (hfg : f ≠ g) (v : BitVec f.width)
    (hd : Answers g.getter s d) :
    Answers g.getter (s.storeByteZero (insert (s.cur.buf.read 0) f v)) d := by
  rw [answers_getter_iff (s.ready_storeByteZero h _), State.read_zero_storeByteZero,
    extract_insert_other _ _ hfg]
  exact (answers_getter_iff h).1 hd

end

end Sys2Proof.Machine

namespace Sys2Proof
open Machine

/-- Settles O16: each setter stores an insert into BUF[0], which its own getter reads back and the other
two do not see. -/
theorem setThenGetReturnsTheValue : Obligations.SetThenGetReturnsTheValue := by
  intro s h
  have same (f : SubField) := answers_getter_storeByteZero_same (f := f) h
  have other {f g : SubField} (hfg : f ≠ g) (v : BitVec f.width) {d : Dout} :=
    answers_getter_storeByteZero_other (d := d) h hfg v
  refine ⟨fun v => ⟨_, setSubField_ready .li v h, same .li v, fun d => ⟨?_, ?_⟩⟩,
    fun v => ⟨_, setSubField_ready .vn v h, same .vn v, fun d => ⟨?_, ?_⟩⟩,
    fun v hv => ⟨_, execSetMode_allowed h hv, same .mode v, fun d => ⟨?_, ?_⟩⟩⟩
  · exact other (f := .li) (g := .vn) nofun v
  · exact other (f := .li) (g := .mode) nofun v
  · exact other (f := .vn) (g := .li) nofun v
  · exact other (f := .vn) (g := .mode) nofun v
  · exact other (f := .mode) (g := .li) nofun v
  · exact other (f := .mode) (g := .vn) nofun v

/-- Settles O11, by the bit positions each sub-field covers. -/
theorem subFieldLaws : Obligations.SubFieldLaws :=
  ⟨extract_insert_same, fun b _ _ v h => extract_insert_other b v h, insert_extract,
    insert_insert, fun b _ _ v w h => insert_comm b v w h, eq_subFields⟩

/-- Settles O12: each getter responds with EXTRACT of its sub-field, which is a bit range of BUF[0]. -/
theorem byteZeroGettersReadTheirBits : Obligations.ByteZeroGettersReadTheirBits := by
  refine ⟨rfl, rfl, rfl, fun s h => ⟨?li, ?vn, ?mode⟩⟩
  case li => rw [← extract_li]; exact exec_getter_ready h .li
  case vn => rw [← extract_vn]; exact exec_getter_ready h .vn
  case mode => rw [← extract_mode]; exact exec_getter_ready h .mode

/-- Settles O13: each setter stores INSERT of its value, which replaces a bit range of BUF[0]. -/
theorem byteZeroSettersInsertTheirBits : Obligations.ByteZeroSettersInsertTheirBits := by
  refine ⟨by decide, by decide, fun s h => ⟨fun v => ?li, fun v => ?vn⟩⟩
  case li => rw [← insert_li]; exact setSubField_ready .li v h
  case vn => rw [← insert_vn]; exact setSubField_ready .vn v h

/-- Settles O14, by whether MODE_STRICT and the value let SET_MODE store. -/
theorem setModeStoresOrRaises : Obligations.SetModeStoresOrRaises := by
  refine ⟨by decide, fun s v h => ⟨fun hv => ?stores, fun hv => ?raises⟩⟩
  case stores => rw [← insert_mode]; exact execSetMode_allowed h hv
  case raises => exact execSetMode_refused h hv

end Sys2Proof
end

section
/-! SUPPORT. The header scalars (41_scalars.md): the byte and word reads behind R120 to R125. -/

namespace Sys2Proof
open Machine

/-- Settles O17: on a packet each command responds with the byte of BUF, or the big-endian word
(`Memory.read32`), at its offset. -/
theorem scalarGettersReturnRawBytes : Obligations.ScalarGettersReturnRawBytes := by
  refine ⟨rfl, rfl, rfl, rfl, rfl, rfl, fun s h => ?_⟩
  have byte (off : Nat) := getByte_ready off h
  have word (off : Nat) := getWord_ready off h
  exact ⟨byte 1, byte 2, byte 3, word 4, word 8, word 12⟩

end Sys2Proof
end

section
/-! SUPPORT. The fixed-point converter (42_timestamps.md section 2): when DECODE and ENCODE answer, and
how far their answers lie from the exact rational, as inequalities on integers; R143 to R147 follow. -/

namespace Sys2Proof.Machine

/-! Rounding (R142, R143). -/

/-- Rounding half up is the floor of the rational plus one half (R142). -/
theorem roundNearest_halfUp (num : Int) {den : Nat} (h : 0 < den) :
    roundNearest .halfUp num den = (2 * num + den) / (2 * den) := by
  have split_num := Int.mul_ediv_add_emod num den
  have nonneg := Int.emod_nonneg num (b := den) (by omega)
  have lt := Int.emod_lt_of_pos num (b := den) (by omega)
  rw [eq_comm, Int.ediv_eq_iff_of_pos (by omega), roundNearest, pickTie]
  split_ifs <;> constructor <;> linarith

/-- Where the rational is no tie, every tie rule rounds it alike. -/
theorem roundNearest_of_not_tie {num : Int} {den : Nat} (h : 2 * (num % den) ≠ den)
    (rule rule' : TieRule) : roundNearest rule num den = roundNearest rule' num den := by
  rw [roundNearest, roundNearest, if_neg h, if_neg h]

/-- A tie at `t * 2^32 / den` makes 2^33 divide `den`, so no lawful TPS has one (R143). -/
theorem not_tie_of_lt (t : Int) {den : Nat} (h : 0 < den) (h' : den < 2 ^ 33) :
    2 * (t * 2 ^ 32 % den) ≠ den := by
  intro tie
  have odd_mul : 2 ^ 33 * t = (2 * (t * 2 ^ 32 / den) + 1) * den := by
    linarith [Int.mul_ediv_add_emod (t * 2 ^ 32) den]
  have coprime : Int.gcd (2 ^ 33) (2 * (t * 2 ^ 32 / den) + 1) = 1 :=
    Int.isCoprime_iff_gcd_eq_one.1 (IsCoprime.pow_left ⟨-(t * 2 ^ 32 / den), 1, by ring⟩)
  have dvd : (2 ^ 33 : Int) ∣ den := Int.dvd_of_dvd_mul_right_of_gcd_one ⟨t, odd_mul.symm⟩ coprime
  have := Int.le_of_dvd (by omega) dvd
  omega

theorem toInt_epoch : (0 : Time).toInt = 0 := BitVec.toInt_zero

/-- What ENCODE answers is the rounded value. -/
theorem toNat_of_encodeTime {g : Config} {t : Time} {r : BitVec 64}
    (h : encodeTime g (some t) = some r) : (r.toNat : Int) = encodedTicks g t := by
  obtain ⟨r0, r1, rfl⟩ := (encodeTime_some_iff g t r).1 h
  exact toNat_ofInt_of_range r0 r1

section
variable {g : Config} (hg : g.lawful)
include hg

/-! DECODE (R141, R147). -/

/-- The floor of R141 is at most that of the top raw value (R147). -/
theorem decoded_le (r : BitVec 64) :
    ((r.toNat * g.tps / 2 ^ 32 : Nat) : Int) ≤ 2 ^ 32 * g.tps - 1 := by
  obtain ⟨tps_ge, -, -⟩ := hg
  have top : r.toNat * g.tps ≤ (2 ^ 64 - 1) * g.tps := Nat.mul_le_mul_right _ (by omega)
  omega

/-- The floor of R141 lies in Int64. -/
theorem toInt_decoded (r : BitVec 64) :
    (BitVec.ofNat 64 (r.toNat * g.tps / 2 ^ 32)).toInt = ((r.toNat * g.tps / 2 ^ 32 : Nat) : Int) := by
  have le := decoded_le hg r
  obtain ⟨-, tps_lt, -⟩ := hg
  rw [BitVec.toInt_ofNat', Int.bmod_eq_of_le] <;> omega

/-- DECODE of a raw value other than zero is the floor, as an integer (R141). -/
theorem decodeTime_eq_some_iff {r : BitVec 64} {t : Time} : decodeTime g.tps r = some t ↔
    r ≠ 0 ∧ t.toInt = ((r.toNat * g.tps / 2 ^ 32 : Nat) : Int) := by
  by_cases h : r = 0
  · simp [h]
  · rw [decodeTime_ne_zero _ h, Option.some_inj, ← BitVec.toInt_inj, toInt_decoded hg, eq_comm]
    exact ⟨fun e => ⟨h, e⟩, fun e => e.2⟩

/-! ENCODE (R142, R144, R145). -/

/-- The rounded value times TPS lies within TPS/2 of `t * 2^32`. -/
theorem encodedTicks_near (t : Time) :
    2 * (g.tps * encodedTicks g t - t.toInt * 2 ^ 32) ≤ g.tps ∧
      -(g.tps : Int) ≤ 2 * (g.tps * encodedTicks g t - t.toInt * 2 ^ 32) :=
  roundNearest_near g.encTie _ (by omega)

/-- The ticks whose rounded value ENCODE can answer (R144). -/
theorem encodedTicks_range_iff (t : Time) :
    0 ≤ encodedTicks g t ∧ encodedTicks g t ≤ 2 ^ 64 - 1 ↔
      0 ≤ t.toInt ∧ t.toInt ≤ 2 ^ 32 * g.tps - 1 := by
  obtain ⟨upper, lower⟩ := encodedTicks_near hg t
  obtain ⟨tps_ge, tps_lt, -⟩ := hg
  have tps_nonneg : (0 : Int) ≤ g.tps := by omega
  have scale {m n : Int} (h : m ≤ n) : g.tps * m ≤ g.tps * n := mul_le_mul_of_nonneg_left h tps_nonneg
  refine ⟨fun ⟨r0, r1⟩ => ⟨?_, ?_⟩, fun ⟨t0, t1⟩ => ⟨?_, ?_⟩⟩
  · have := scale r0
    omega
  · have := scale r1
    omega
  · by_contra neg
    have := scale (show encodedTicks g t ≤ -1 by omega)
    omega
  · by_contra above
    have := scale (show 2 ^ 64 ≤ encodedTicks g t by omega)
    omega

/-- The domain of ENCODE (R144). -/
theorem exists_encodeTime_iff (t : Time) : (∃ r, encodeTime g (some t) = some r) ↔
    0 ≤ t.toInt ∧ t.toInt ≤ 2 ^ 32 * g.tps - 1 := by
  rw [← encodedTicks_range_iff hg]
  refine ⟨fun ⟨r, h⟩ => ?_, fun ⟨r0, r1⟩ => ⟨_, (encodeTime_some_iff g t _).2 ⟨r0, r1, rfl⟩⟩⟩
  obtain ⟨r0, r1, -⟩ := (encodeTime_some_iff g t r).1 h
  exact ⟨r0, r1⟩

/-- The raw value ENCODE answers, times TPS, lies within TPS/2 of `t * 2^32`. -/
theorem encodeTime_near {t : Time} {r : BitVec 64} (h : encodeTime g (some t) = some r) :
    2 * (g.tps * r.toNat - t.toInt * 2 ^ 32) ≤ g.tps ∧
      -(g.tps : Int) ≤ 2 * (g.tps * r.toNat - t.toInt * 2 ^ 32) := by
  rw [toNat_of_encodeTime h]
  exact encodedTicks_near hg t

/-- A tick is more than two raw units (R145). -/
theorem two_le_encodeTime {t : Time} {r : BitVec 64} (h : encodeTime g (some t) = some r)
    (ht : 1 ≤ t.toInt) : 2 ≤ r.toNat := by
  obtain ⟨upper, lower⟩ := encodeTime_near hg h
  obtain ⟨tps_ge, tps_lt, -⟩ := hg
  zify
  nlinarith

/-- The epoch encodes to zeros (R145). -/
theorem encodeTime_epoch : encodeTime g (some 0) = some 0 := by
  obtain ⟨r, hr⟩ := (exists_encodeTime_iff hg 0).2 (by rw [toInt_epoch]; omega)
  obtain ⟨upper, -⟩ := encodeTime_near hg hr
  rw [toInt_epoch] at upper
  obtain ⟨tps_ge, -, -⟩ := hg
  have zero : r.toNat = 0 := by nlinarith
  rw [hr, BitVec.eq_of_toNat_eq (y := 0) zero]

end

/-! The wire timestamp commands at their offsets (R148). -/

variable {s : State}

theorem getTimestamp_eightBytes (h : s.cur.Ready) (f : WireTs) : getTimestamp f s =
    .next (s.setCur (s.cur.ok (.otime (decodeTime s.cfg.tps (s.cur.eightBytes f.offset))))) := by
  rw [getTimestamp_ready f h, Codec.rawTs_eq_eightBytes]

/-- The eight bytes just written, put together. -/
theorem Codec.eightBytes_write64 (x : Codec) (f : WireTs) (r : BitVec 64) :
    (x.withBuf (x.buf.write64 f.offset r)).eightBytes f.offset = r := by
  rw [← Codec.rawTs_eq_eightBytes]
  exact Memory.read64_write64_same _ _ r

/-- A command that writes the wire timestamp `f` does what R150, R152, R154 and R156 say at the offset
of `f`. -/
theorem storesTimestampAt_offset {i : Option Time → Instr} {opc : BitVec 8} (f : WireTs)
    (enc : ∀ o, encode (i o) = ⟨opc ++ 0#8, Din.ofTime o⟩)
    (hi : ∀ o s, exec (i o) s = setTimestamp f o s) : StoresTimestampAt i opc f.offset := by
  refine ⟨enc, fun s o h => ⟨fun r hr => ⟨_, (hi o s).trans (setTimestamp_ready f h hr), ?_⟩,
    fun hr => (hi o s).trans (setTimestamp_range f h hr)⟩⟩
  rw [State.cur_setCur]
  exact ⟨rfl, rfl, s.cur.eightBytes_write64 f r, fun a ha => Memory.read_write64_other _ ha r,
    rfl, rfl, rfl, rfl, rfl, s.sameOthers_setCur _, s.sameOutside_setCur _⟩

end Sys2Proof.Machine

namespace Sys2Proof
open Machine

/-- Settles O19, by the floor of R141 lying in Int64. -/
theorem decodeIsExactFloor : Obligations.DecodeIsExactFloor := by
  intro g hg
  exact ⟨rfl, fun r hr => ⟨_, decodeTime_ne_zero _ hr, toInt_decoded hg r⟩⟩

/-- Settles O20: the raw value is `sec * 2^32 + frac`, and the range of DECODE is the domain of ENCODE. -/
theorem decodeSplitAndRange : Obligations.DecodeSplitAndRange := by
  intro g hg r t h
  obtain ⟨-, ht⟩ := (decodeTime_eq_some_iff hg).1 h
  have nonneg : 0 ≤ t.toInt := by omega
  have le : t.toInt ≤ 2 ^ 32 * g.tps - 1 := by rw [ht]; exact decoded_le hg r
  refine ⟨?_, nonneg, le, (exists_encodeTime_iff hg t).2 ⟨nonneg, le⟩⟩
  have sec_frac : r.toNat =
      2 ^ 32 * (r.extractLsb' 32 32).toNat + (r.extractLsb' 0 32).toNat := by
    simp only [BitVec.extractLsb'_toNat, Nat.shiftRight_eq_div_pow]
    omega
  rw [ht]
  nth_rw 1 [sec_frac]
  rw [Nat.add_mul, Nat.mul_assoc, Nat.mul_add_div (by decide)]

/-- Settles O21: rounding half up is the floor of the rational plus one half, and the number of what
ENCODE answers. -/
theorem encodeRoundsToNearest : Obligations.EncodeRoundsToNearest := by
  intro g hpos hrule
  refine ⟨rfl, fun t r hr => ?_⟩
  have rounded : encodedTicks g t = r := by
    rw [encodedTicks, hrule, roundNearest_halfUp _ hpos, hr]
  rw [← rounded]
  refine ⟨(encodeTime_none_iff g t).2, fun ⟨r0, r1⟩ => ?_⟩
  exact ⟨_, (encodeTime_some_iff g t _).2 ⟨r0, r1, rfl⟩, toNat_ofInt_of_range r0 r1⟩

/-- Settles O22: at a lawful TPS no rational `t * 2^32 / TPS` is a tie. -/
theorem tieRuleNeverMatters : Obligations.TieRuleNeverMatters := by
  intro g ⟨tps_ge, tps_lt, _⟩ rule o
  have no_tie (t : Time) : 2 * (t.toInt * 2 ^ 32 % g.tps) ≠ g.tps :=
    not_tie_of_lt _ (by omega) (by omega)
  cases o with
  | none => rfl
  | some t =>
    have same : encodedTicks { g with encTie := rule } t = encodedTicks g t :=
      roundNearest_of_not_tie (no_tie t) rule g.encTie
    rw [encodeTime, encodeTime, same]

/-- Settles O23, by the ticks whose rounded value is in range. -/
theorem encodeDomain : Obligations.EncodeDomain := fun _ hg t => exists_encodeTime_iff hg t

/-- Settles O24: a tick is more than two raw units, so only the epoch encodes to zeros. -/
theorem epochAloneEncodesAsAbsent : Obligations.EpochAloneEncodesAsAbsent := by
  intro g hg t
  refine ⟨⟨fun h => ?_, ?_⟩, fun r h ht => two_le_encodeTime hg h ht⟩
  · obtain ⟨nonneg, -⟩ := (exists_encodeTime_iff hg t).1 ⟨0, h⟩
    by_contra ne
    have ne' : t.toInt ≠ 0 := fun e => ne (BitVec.eq_of_toInt_eq (e.trans toInt_epoch.symm))
    exact absurd (two_le_encodeTime hg h (by omega)) (by decide)
  · rintro rfl
    exact encodeTime_epoch hg

/-- Settles O25: the raw value is within one half of `t * 2^32 / TPS`, and 2^32/TPS is more than two, so
its floor is `t` or `t - 1`. -/
theorem roundTripLosesAtMostOneTick : Obligations.RoundTripLosesAtMostOneTick := by
  intro g hg
  refine ⟨rfl, by rw [encodeTime_epoch hg]; rfl, fun t h1 h2 => ?_⟩
  obtain ⟨r, hr⟩ := (exists_encodeTime_iff hg t).2 ⟨by omega, h2⟩
  have ne_zero : r ≠ 0 := by
    rintro rfl
    exact absurd (two_le_encodeTime hg hr h1) (by decide)
  have pred : (t - 1).toInt = t.toInt - 1 := by
    have one : (1 : Time).toInt = 1 := rfl
    have := t.toInt_lt
    rw [BitVec.toInt_sub, one, Int.bmod_eq_of_le] <;> omega
  obtain ⟨upper, lower⟩ := encodeTime_near hg hr
  refine ⟨r, hr, ?_⟩
  simp only [decodeTime_eq_some_iff hg, pred]
  obtain ⟨-, tps_lt, -⟩ := hg
  have comm := mul_comm (g.tps : Int) r.toNat
  have floor : (r.toNat * g.tps / 2 ^ 32 : Nat) = t.toInt ∨
      (r.toNat * g.tps / 2 ^ 32 : Nat) = t.toInt - 1 := by omega
  exact floor.imp (fun e => ⟨ne_zero, e.symm⟩) fun e => ⟨ne_zero, e.symm⟩

/-- Settles O26: the floor lowers `r * TPS` by less than 2^32, and rounding moves it by at most TPS/2. -/
theorem rewritingLowersRawBitsLittle : Obligations.RewritingLowersRawBitsLittle := by
  intro g hg r hr
  obtain ⟨d, hd, floor⟩ := (decodeIsExactFloor g hg).2 r hr
  obtain ⟨-, -, -, r', hr'⟩ := decodeSplitAndRange g hg r d hd
  obtain ⟨upper, lower⟩ := encodeTime_near hg hr'
  obtain ⟨tps_ge, tps_lt, -⟩ := hg
  have floor_le : d.toInt * 2 ^ 32 ≤ r.toNat * g.tps := by rw [floor]; omega
  have lt_floor : (r.toNat * g.tps : Int) < d.toInt * 2 ^ 32 + 2 ^ 32 := by rw [floor]; omega
  have le : r'.toNat ≤ r.toNat := by zify; nlinarith
  refine ⟨d, r', hd, hr', le, ?_, fun tps small => BitVec.eq_of_toInt_eq ?_⟩
  · zify [le]
    linarith
  · rw [floor, tps, toInt_epoch]
    omega

/-- Settles O28: each setter stores ENCODE of its operand at the offset of its wire timestamp. -/
theorem wireSettersStoreTheEncoding : Obligations.WireSettersStoreTheEncoding :=
  ⟨storesTimestampAt_offset .ref (fun _ => rfl) fun o _ => exec_setRefTs o,
    storesTimestampAt_offset .org (fun _ => rfl) fun o _ => exec_setOrgTs o,
    storesTimestampAt_offset .rcv (fun _ => rfl) fun o _ => exec_setRcvTs o,
    storesTimestampAt_offset .xmt (fun _ => rfl) fun o _ => exec_setXmtTs o⟩

/-- Settles O27: each getter responds with DECODE of the eight bytes at its wire timestamp's offset. -/
theorem wireGettersDecodeTheirField : Obligations.WireGettersDecodeTheirField := by
  refine ⟨rfl, rfl, rfl, rfl, fun s h => ?_⟩
  have get (f : WireTs) := getTimestamp_eightBytes h f
  exact ⟨get .ref, get .org, get .rcv, get .xmt⟩

/-- Settles O30: the getter responds with the destination register, the setter replaces it. -/
theorem destinationRegisterCommands : Obligations.DestinationRegisterCommands := by
  refine ⟨rfl, fun _ => rfl, fun s h => ⟨execGetDstTs_ready h,
    ⟨_, execSetDstTs_ready none h, ?_⟩, fun t => execSetDstTs_ready (some t) h⟩⟩
  rw [State.cur_setCur]
  exact ⟨rfl, rfl, rfl, rfl, rfl, rfl, rfl, s.sameOthers_setCur _, s.sameOutside_setCur _⟩

end Sys2Proof
end

section
/-! SUPPORT. The derived metrics (43_metrics.md): HALVE (R173), the Int64 check both metrics share, and
what a metric command answers on a packet (R171, R172, R174). -/

namespace Sys2Proof.Machine

/-! HALVE (R173): every rule takes the floor or the ceiling of the half, and its law follows from that
alone. -/

theorem halveBy_towardZero_of_nonneg {n : Int} (h : 0 ≤ n) : halveBy .towardZero n = n / 2 :=
  Int.tdiv_eq_ediv_of_nonneg h

theorem halveBy_towardZero_of_nonpos {n : Int} (h : n ≤ 0) : halveBy .towardZero n = -(-n / 2) := by
  rw [halveBy, ← Int.tdiv_eq_ediv_of_nonneg (by omega), Int.neg_tdiv, neg_neg]

theorem halveBy_eq_floor_or_ceil (rule : HalveRule) (n : Int) :
    halveBy rule n = n / 2 ∨ halveBy rule n = (n + 1) / 2 := by
  cases rule with
  | towardZero =>
    rcases le_total 0 n with h | h
    · exact .inl (halveBy_towardZero_of_nonneg h)
    · rw [halveBy_towardZero_of_nonpos h]; omega
  | down => exact .inl rfl
  | up => exact .inr rfl
  | halfEven => simp only [halveBy]; omega
  | unspecified => simp only [halveBy]; split_ifs <;> omega

theorem halveBy_two_mul (rule : HalveRule) (n : Int) : halveBy rule (2 * n) = n := by
  have := halveBy_eq_floor_or_ceil rule (2 * n)
  omega

theorem halveBy_near (rule : HalveRule) (n : Int) :
    2 * halveBy rule n - n ≤ 1 ∧ n - 2 * halveBy rule n ≤ 1 := by
  have := halveBy_eq_floor_or_ceil rule n
  omega

theorem halveBy_inInt64 (rule : HalveRule) {n : Int} (h : InInt64 n) : InInt64 (halveBy rule n) := by
  have := halveBy_eq_floor_or_ceil rule n
  unfold InInt64 at *
  omega

/-! The Int64 check of R171 and R172, which the two formulas share. -/

/-- The two differences of four times and the number computed from them all lie in Int64. -/
def FourTimes.Fits (f : FourTimes) (num : Int) : Prop := InInt64 f.out ∧ InInt64 f.back ∧ InInt64 num

/-- A metric formula, at four times, answers the duration `value` where they and `num` fit Int64, and
overflows where they do not. -/
structure Measures (formula : FourTimes → Option Duration) (f : FourTimes) (num value : Int) :
    Prop where
  answers : f.Fits num → ∃ d, formula f = some d ∧ d.toInt = value
  overflows : ¬ f.Fits num → formula f = none

theorem FourTimes.fits_iff (f : FourTimes) (num : Int) :
    (fitsInt64 f.out && fitsInt64 f.back && fitsInt64 num) = true ↔ f.Fits num := by
  simp only [Bool.and_eq_true, fitsInt64_iff, and_assoc, FourTimes.Fits]

/-- The shape of both formulas: the value, under the check. -/
theorem measures_of_check {formula : FourTimes → Option Duration} {f : FourTimes} {num value : Int}
    (hf : formula f = if fitsInt64 f.out && fitsInt64 f.back && fitsInt64 num then
      some (BitVec.ofInt 64 value) else none)
    (hv : InInt64 num → InInt64 value) : Measures formula f num value := by
  have check := f.fits_iff num
  refine ⟨fun fits => ⟨_, hf.trans (if_pos (check.2 fits)), ?_⟩,
    fun unfit => hf.trans (if_neg (mt check.1 unfit))⟩
  obtain ⟨-, -, hnum⟩ := fits
  exact toInt_ofInt_of_inInt64 (hv hnum)

theorem roundTrip_measures (f : FourTimes) :
    Measures roundTrip f (f.out + f.back) (f.out + f.back) := measures_of_check rfl id

theorem correctionOffset_measures (g : Config) (f : FourTimes) :
    Measures (correctionOffset g) f (f.out - f.back) (halveBy g.halve (f.out - f.back)) :=
  measures_of_check rfl (halveBy_inInt64 g.halve)

/-- What a formula answers is its value. -/
theorem Measures.toInt_eq {formula : FourTimes → Option Duration} {f : FourTimes} {num value : Int}
    {d : Duration} (m : Measures formula f num value) (h : formula f = some d) : d.toInt = value := by
  by_cases fits : f.Fits num
  · obtain ⟨d', hd', hv⟩ := m.answers fits
    obtain rfl : d' = d := Option.some.inj (hd'.symm.trans h)
    exact hv
  · rw [m.overflows fits] at h
    cases h

/-! The metric commands on a packet. -/

variable {s : State}

/-- REQUIRED of R170, from the four timestamps at their offsets. -/
theorem required_of_fourPresent {t0 t1 t2 t3 : Time} (h : FourPresent s t0 t1 t2 t3) :
    required s.cfg s.cur = some ⟨t0.toInt, t1.toInt, t2.toInt, t3.toInt⟩ := by
  obtain ⟨h0, h1, h2, dv, rfl⟩ := h
  refine required_eq_some ?_ ?_ ?_ (by rw [Codec.destination, if_pos dv])
  · rw [Codec.rawTs_eq_eightBytes]; exact h0
  · rw [Codec.rawTs_eq_eightBytes]; exact h1
  · rw [Codec.rawTs_eq_eightBytes]; exact h2

theorem required_of_someAbsent (h : SomeAbsent s) : required s.cfg s.cur = none := by
  refine required_eq_none ?_
  simp only [Codec.rawTs_eq_eightBytes]
  exact h

section
variable {formula : FourTimes → Option Duration} {f : FourTimes} {num value : Int}

theorem metric_someAbsent (ready : s.cur.Ready) (h : SomeAbsent s) :
    metric formula s = raise .state s := metric_absent ready (required_of_someAbsent h)

theorem metric_of_fits (m : Measures formula f num value) (ready : s.cur.Ready)
    (req : required s.cfg s.cur = some f) (fits : f.Fits num) :
    ∃ d, metric formula s = .next (s.setCur (s.cur.ok (.dur d))) ∧ d.toInt = value := by
  obtain ⟨d, hd, hv⟩ := m.answers fits
  exact ⟨d, metric_result ready req hd, hv⟩

theorem metric_of_not_fits (m : Measures formula f num value) (ready : s.cur.Ready)
    (req : required s.cfg s.cur = some f) (unfit : ¬ f.Fits num) :
    metric formula s = raise .overflow s := metric_overflow ready req (m.overflows unfit)

/-- A metric command that answers a duration answers the value of its formula. -/
theorem Answers.toInt_eq {i : Instr} {d : Duration} (h : Answers i s (.dur d))
    (hi : exec i s = metric formula s) (m : Measures formula f num value)
    (req : required s.cfg s.cur = some f) : d.toInt = value := by
  obtain ⟨t, ht, -, hd⟩ := h
  obtain ⟨e, -, rfl⟩ | ⟨f', d', -, req', hf, rfl⟩ := metric_next (hi ▸ ht)
  · simp at hd
  · obtain rfl : f' = f := Option.some.inj (req'.symm.trans req)
    obtain rfl : d' = d := by simpa using hd
    exact m.toInt_eq hf

end

end Sys2Proof.Machine

namespace Sys2Proof
open Machine

/-- Settles O34: HALVE takes the floor or the ceiling of the half, and truncation is the one that lies
toward zero. -/
theorem halveLaw : Obligations.HalveLaw := by
  refine ⟨fun rule n => ?_, rfl,
    fun n => ⟨halveBy_towardZero_of_nonneg, halveBy_towardZero_of_nonpos⟩⟩
  obtain ⟨above, below⟩ := halveBy_near rule n
  exact ⟨halveBy_two_mul rule n, above, below, halveBy_inInt64 rule⟩

/-- Settles O32: the sum of the two differences, under the shared Int64 check. -/
theorem roundTripTimeFormula : Obligations.RoundTripTimeFormula := by
  refine ⟨rfl, fun s ready absent => metric_someAbsent ready absent, ?_⟩
  rintro s t0 t1 t2 t3 _ _ ready present rfl rfl
  have req := required_of_fourPresent present
  exact ⟨metric_of_fits (roundTrip_measures _) ready req,
    metric_of_not_fits (roundTrip_measures _) ready req⟩

/-- Settles O33: HALVE of the numerator, which lies in Int64 where the numerator does. -/
theorem correctionOffsetFormula : Obligations.CorrectionOffsetFormula := by
  refine ⟨rfl, fun s ready absent => metric_someAbsent ready absent, ?_⟩
  rintro s t0 t1 t2 t3 _ _ ready present rfl rfl
  have req := required_of_fourPresent present
  exact ⟨metric_of_fits (correctionOffset_measures _ _) ready req,
    metric_of_not_fits (correctionOffset_measures _ _) ready req⟩

/-- Settles O35: the two answers are a + b and HALVE(a - b) for the two differences a and b, and
a - b = 2d where it is even. -/
theorem metricsAgree : Obligations.MetricsAgree := by
  intro s t0 t1 t2 t3 r d present rtt
  have req := required_of_fourPresent present
  have sum := rtt.toInt_eq exec_getRtt (roundTrip_measures _) req
  simp only [FourTimes.out, FourTimes.back] at sum
  refine ⟨by omega, fun offset => ?_⟩
  have half := offset.toInt_eq exec_getOffset (correctionOffset_measures _ _) req
  simp only [FourTimes.out, FourTimes.back] at half
  refine ⟨?_, fun even => ?_⟩
  · rw [half]
    congr 1
    omega
  · obtain ⟨n, hn⟩ := Int.dvd_of_emod_eq_zero even
    rw [hn, halveBy_two_mul] at half
    omega

end Sys2Proof
end

section
/-! SUPPORT. The packet as a whole (44_buffer.md): the bytes an instance holds, and what the two
constructors and READ_BUF do with them (R180, R183, R186). -/

namespace Sys2Proof.Machine

/-! The packet's bytes. -/

section
variable {x : Codec}

@[simp] theorem Codec.length_bytes : x.bytes.length = x.len := Memory.readBytes_length _ _ _

theorem Codec.getElem?_bytes {j : Nat} (h : j < x.len) : x.bytes[j]? = some (x.buf.read j) := by
  rw [Codec.bytes, Memory.getElem?_readBytes _ _ _ _ h, Nat.zero_add]

@[simp] theorem Codec.bytes_ok (d : Dout) : (x.ok d).bytes = x.bytes := rfl

@[simp] theorem Codec.bytes_loaded (b : List Byte) : (x.loaded b).bytes = b :=
  Memory.readBytes_ofBytes b

/-- The default packet (R180): version 4 and mode 3 in byte 0, and 47 zero bytes. -/
def defaultPacket : List Byte := 0x23 :: List.replicate 47 0

theorem defaultPacket_getD_other {a : Nat} (h : a ≠ 0) : defaultPacket.getD a 0 = 0 := by
  obtain ⟨n, rfl⟩ := Nat.exists_eq_succ_of_ne_zero h
  exact List.getElem?_getD_replicate_default_eq 0 47 n

theorem Memory.ofBytes_defaultPacket :
    Memory.ofBytes defaultPacket = Memory.write [] 0 defaultByte0 := by decide

/-- INIT_DEFAULT leaves what LOAD of the default packet leaves. -/
theorem Codec.initialised_eq_loaded : x.initialised = x.loaded defaultPacket := by
  rw [Codec.initialised, Codec.loaded, Memory.ofBytes_defaultPacket]
  rfl

end

/-! What the commands answer. -/

section
variable {s : State} {b : List Byte}

theorem exec_initDefault_next :
    exec .initDefault s = .next (s.setCur ((s.cur.loaded defaultPacket).ok .nothing)) := by
  rw [← Codec.initialised_eq_loaded]
  rfl

theorem execReadBuf_noPacket (h : s.cur.pv = false) :
    execReadBuf s = .next (s.setCur (s.cur.fail .noPacket)) :=
  withPacket_noPacket (fun x => respond (.bytes x.bytes) x s) h

theorem answers_readBuf (h : s.cur.Ready) : Answers .readBuf s (.bytes s.cur.bytes) :=
  ⟨_, execReadBuf_ready h, by simp⟩

/-- READ_BUF returns what LOAD copied in (R183, R186). -/
theorem answers_readBuf_loaded (h : 48 ≤ b.length) :
    Answers .readBuf (s.setCur ((s.cur.loaded b).ok .nothing)) (.bytes b) := by
  have ready : (s.setCur ((s.cur.loaded b).ok .nothing)).cur.Ready := by
    rw [State.cur_setCur]
    exact ⟨rfl, h⟩
  simpa using answers_readBuf ready

end

end Sys2Proof.Machine

namespace Sys2Proof
open Machine

/-- Settles O36: INIT_DEFAULT is LOAD of the default packet, without the check of the length. -/
theorem initDefaultBuildsThePacket : Obligations.InitDefaultBuildsThePacket := by
  refine ⟨rfl, fun s => ⟨_, exec_initDefault_next, ?_⟩⟩
  rw [State.cur_setCur]
  refine ⟨rfl, rfl, rfl, rfl, rfl, rfl, ?first, fun a ha => ?rest, ?image,
    s.sameOthers_setCur _, s.sameOutside_setCur _⟩
  case first => exact Memory.read_ofBytes defaultPacket 0
  case rest => exact (Memory.read_ofBytes defaultPacket a).trans (defaultPacket_getD_other ha)
  case image => exact s.cur.bytes_loaded defaultPacket

/-- Settles O37, by whether LOAD accepts the length; what it copies in is what READ_BUF copies out. -/
theorem loadCopiesAcceptedBytes : Obligations.LoadCopiesAcceptedBytes := by
  refine ⟨fun _ => rfl, fun s b => ⟨fun hmin hmax => ?accepted, fun out => ?refused⟩⟩
  case accepted =>
    refine ⟨_, execLoad_accepted ((lengthAccepted_iff _ _).2 ⟨hmin, hmax⟩), ?_⟩
    rw [State.cur_setCur]
    refine ⟨rfl, rfl, rfl, rfl, rfl, rfl, fun a ha => ?_, answers_readBuf_loaded hmin,
      s.sameOthers_setCur _, s.sameOutside_setCur _⟩
    simpa using (s.cur.loaded b).getElem?_bytes ha
  case refused =>
    have rejected : lengthAccepted s.cfg b.length ≠ true := by
      rw [Ne, lengthAccepted_iff]
      omega
    exact execLoad_refused (Bool.eq_false_of_not_eq_true rejected)

/-- Settles O38: READ_BUF responds with the LEN bytes of BUF on a packet, and is refused without one. -/
theorem readBufReturnsEveryByte : Obligations.ReadBufReturnsEveryByte :=
  ⟨rfl, fun _ absent => execReadBuf_noPacket absent, fun s ready =>
    ⟨s.cur.bytes, execReadBuf_ready ready, Codec.length_bytes, fun _ hj => Codec.getElem?_bytes hj⟩⟩

end Sys2Proof
end

section
/-! SUPPORT. The host-side Client (45_exchange.md): what an operation on one Client changes, one rule for
each line of an exchange where its codec command ends OK or with an error (R194 to R196), and the
stretches of lines the statements speak of. -/

namespace Sys2Proof.Machine

/-! Operations on one Client (R193, R197). -/

section
variable {s : State} {c : Nat} {rest : List HostOp}

/-- An operation that only replaces Client `c` changes only it. -/
theorem changesOnlyClient_putClient (hr : s.run = none) (y : Client) :
    ChangesOnlyClient s (({ s with pending := rest } : State).putClient c y) c y rest :=
  ⟨State.client_putClient_same _ _ _, fun _ hk => State.client_putClient_other _ _ _ hk, rfl, rfl,
    hr, rfl⟩

theorem belowMinTimeout_iff (g : Config) (d : Duration) :
    belowMinTimeout g d = true ↔ d.toInt * 1000 < g.tps := by
  rw [belowMinTimeout, decide_eq_true_iff, minTimeoutMs, Nat.one_mul]

theorem setTimeout_below {d : Duration} (h : d.toInt * 1000 < s.cfg.tps) :
    setTimeout c d s = reject c HostErr.range.code s :=
  if_pos ((belowMinTimeout_iff _ _).2 h)

theorem setTimeout_taken {d : Duration} (h : s.cfg.tps ≤ d.toInt * 1000) : setTimeout c d s =
    s.putClient c { s.client c with timeout := d, status := 0, value := some .nothing } :=
  if_neg fun below => Int.not_lt.2 h ((belowMinTimeout_iff _ _).1 below)

theorem beginExchange_released {x : Exchange} (h : (s.client x.client).released = true) :
    beginExchange x s = reject x.client HostErr.released.code s := if_pos h

theorem beginExchange_open {x : Exchange} (h : (s.client x.client).released = false) :
    beginExchange x s = { s with run := some x } := if_neg (by simp [h])

/-- Taking a release (R197). -/
theorem step_release (hr : s.run = none) (hp : s.pending = .release c :: rest) :
    ∃ t, step s = .next t ∧ ChangesOnlyClient s t c
      { s.client c with released := true, status := 0, value := some .nothing } rest :=
  ⟨_, step_of_pending hr hp, changesOnlyClient_putClient hr _⟩

/-- Taking an operation that begins an exchange on a released Client (R197, R213). -/
theorem step_begin_released {op : HostOp} {x : Exchange} (hr : s.run = none)
    (hp : s.pending = op :: rest) (hop : ∀ u, perform op u = .next (beginExchange x u))
    (hx : (s.client x.client).released = true) :
    ∃ t, step s = .next t ∧ ChangesOnlyClient s t x.client
      { s.client x.client with status := HostErr.released.code, value := none } rest :=
  ⟨_, (step_of_pending hr hp).trans <| (hop _).trans <|
    congrArg Host.Outcome.next (beginExchange_released hx), changesOnlyClient_putClient hr _⟩

end

/-! The end of an exchange. -/

section
variable (s : State) (x : Exchange) (v : HostValue) (code : BitVec 4) (k : Nat)

@[simp] theorem endOk_run : (endOk x v s).run = none := rfl
@[simp] theorem endOk_pending : (endOk x v s).pending = s.pending := rfl
@[simp] theorem endOk_codec : (endOk x v s).codec k = s.codec k := rfl
@[simp] theorem endOk_client : (endOk x v s).client x.client =
    { s.client x.client with status := 0, value := some v } := State.client_putClient_same _ _ _

@[simp] theorem endError_run : (endError x code s).run = none := rfl
@[simp] theorem endError_pending : (endError x code s).pending = s.pending := rfl
@[simp] theorem endError_codec : (endError x code s).codec k = s.codec k := rfl
@[simp] theorem endError_client : (endError x code s).client x.client =
    { s.client x.client with status := code, value := none } := State.client_putClient_same _ _ _

end

/-! A codec command of an exchange. -/

/-- The machine after the exchange issued a codec command that left codec `k` as `y`. -/
def State.ran (s : State) (k : Nat) (y : Codec) : State := (s.select k).putCodec k y

section
variable (s : State) (k : Nat) (y : Codec)

@[simp] theorem State.ran_cfg : (s.ran k y).cfg = s.cfg := rfl
@[simp] theorem State.ran_clients : (s.ran k y).clients = s.clients := rfl
@[simp] theorem State.ran_client (c : Nat) : (s.ran k y).client c = s.client c := rfl
@[simp] theorem State.ran_pending : (s.ran k y).pending = s.pending := rfl
@[simp] theorem State.ran_codec_same : (s.ran k y).codec k = y := State.codec_putCodec_same _ _ _
theorem State.ran_codec_other {j : Nat} (h : j ≠ k) : (s.ran k y).codec j = s.codec j :=
  State.codec_putCodec_other _ _ _ h

end

section
variable {s : State} {x : Exchange} {cont : Dout → State → Result}

/-- A machine whose exchange is at the line `p`. -/
theorem State.eq_goTo {p : Phase} (hr : s.run = some x) (hp : x.phase = p) : s.goTo x p = s := by
  subst hp
  rw [State.goTo, ← hr]

theorem State.select_setCur (k : Nat) (y : Codec) : (s.select k).setCur y = s.ran k y := rfl

/-- A codec command of the exchange that ends OK on its codec hands its result to the continuation. -/
theorem call_of_answers {k : Nat} {c : Command} {i : Instr} {d : Dout} (hd : decode c = .ok i)
    (h : Answers i (s.select k) d) : ∃ y, call x k c cont s = cont d (s.ran k y) := by
  obtain ⟨u, hu, hs, hv⟩ := h
  obtain ⟨y, rfl⟩ := exec_next_setCur hu
  refine ⟨y, ?_⟩
  rw [State.cur_setCur] at hs hv
  rw [State.select_setCur] at hu
  simp only [call, issue, runCommand_of_decode hd, hu, State.ran_codec_same, hs, hv]
  rfl

/-- A codec command of the exchange that ends with an error on its codec ends the exchange with the same
code (D26). -/
theorem call_of_error {k : Nat} {c : Command} {i : Instr} {u : State} (hd : decode c = .ok i)
    (hu : exec i (s.select k) = .next u) (hs : u.cur.status ≠ 0) :
    call x k c cont s = .next (endError x u.cur.status u) := by
  obtain ⟨y, rfl⟩ := exec_next_setCur hu
  rw [State.cur_setCur] at hs ⊢
  rw [State.select_setCur] at hu ⊢
  simp only [call, issue, runCommand_of_decode hd, hu, State.ran_codec_same, if_pos hs]

end

/-! What a codec holds under its ports and its destination. -/

section
variable (x : Codec) (off : Nat)

/-- The bytes outside the eight that were written into copied bytes. -/
theorem Memory.read_write64_ofBytes {b : List Byte} {off a : Nat} (ha : a < off ∨ off + 8 ≤ a)
    (r : BitVec 64) : ((Memory.ofBytes b).write64 off r).read a = b.getD a 0 :=
  (Memory.read_write64_other _ ha r).trans (Memory.read_ofBytes b a)

@[simp] theorem Codec.eightBytes_ok (d : Dout) : (x.ok d).eightBytes off = x.eightBytes off := rfl
@[simp] theorem Codec.eightBytes_setDestination (o : Option Time) :
    (x.setDestination o).eightBytes off = x.eightBytes off := by cases o <;> rfl
theorem Codec.ready_loaded {b : List Byte} (h : 48 ≤ b.length) : (x.loaded b).Ready := ⟨rfl, h⟩
theorem Codec.ready_ok {x : Codec} (h : x.Ready) (d : Dout) : (x.ok d).Ready := h

end

/-! The lines of an exchange (R194 to R196): `q` and `z` are what REQ and RSP hold at the line. -/

section
variable {s : State} {x : Exchange} {q z : Codec} {reply : List Byte}

theorem step_goTo {p : Phase} : step (s.goTo x p) = advance { x with phase := p } (s.goTo x p) :=
  step_of_run (State.goTo_run _ _ _)

/-- INIT_DEFAULT on REQ (R195). -/
theorem step_initRequest : step (s.goTo x .initRequest) = .next
    ((s.ran x.req (((s.codec x.req).loaded defaultPacket).ok .nothing)).goTo x .stampRequest) :=
  step_goTo.trans (call_ok (decodeOfEncode .initDefault) exec_initDefault_next)

/-- SET_ORG_TS of the clock's reading on REQ (R195). -/
theorem step_stampRequest {r : BitVec 64} (hq : s.codec x.req = q) (ready : q.Ready)
    (enc : encodeTime s.cfg (some x.nowRequest) = some r) : step (s.goTo x .stampRequest) = .next
      ((s.ran x.req ((q.withBuf (q.buf.write64 24 r)).ok .nothing)).goTo x .readRequest) := by
  subst hq
  exact step_goTo.trans (call_ok (decodeOfEncode (.setOrgTs (some x.nowRequest)))
    (setTimestamp_ready .org ready enc))

theorem step_stampRequest_range (hq : s.codec x.req = q) (ready : q.Ready)
    (enc : encodeTime s.cfg (some x.nowRequest) = none) : step (s.goTo x .stampRequest) = .next
      (endError x Err.tsRange.code (s.ran x.req (q.fail .tsRange))) := by
  subst hq
  exact step_goTo.trans (call_error (decodeOfEncode (.setOrgTs (some x.nowRequest)))
    (setTimestamp_range .org ready enc))

/-- READ_BUF on REQ (R194). -/
theorem step_readRequest (hq : s.codec x.req = q) (ready : q.Ready) :
    step (s.goTo x .readRequest) = .next
      ((s.ran x.req (q.ok (.bytes q.bytes))).goTo x (.send q.bytes)) := by
  subst hq
  exact step_goTo.trans (call_ok (decodeOfEncode .readBuf)
    (execReadBuf_ready (s := (s.goTo x .readRequest).select x.req) ready))

/-- CH.send of the request, on a channel that will reply (R194). -/
theorem step_send (b : List Byte) (hch : x.channel = .reply reply) :
    step (s.goTo x (.send b)) = .next
      ((s.putClient x.client { s.client x.client with
        sent := (s.client x.client).sent ++ [⟨(s.client x.client).remote, b⟩] }).goTo x .receive) := by
  obtain ⟨c, req, rsp, ch, now, now', w, p⟩ := x
  subst hch
  exact step_goTo

/-- CH.receive of a reply (R194). -/
theorem step_receive (hch : x.channel = .reply reply) :
    step (s.goTo x .receive) = .next (s.goTo x (.loadReply reply)) := by
  obtain ⟨c, req, rsp, ch, now, now', w, p⟩ := x
  subst hch
  exact step_goTo

/-- LOAD of the reply into RSP (R194). -/
theorem step_loadReply (hz : s.codec x.rsp = z) (hb : lengthAccepted s.cfg reply.length = true) :
    step (s.goTo x (.loadReply reply)) = .next
      ((s.ran x.rsp ((z.loaded reply).ok .nothing)).goTo x .readOrigin) := by
  subst hz
  exact step_goTo.trans (call_ok (decodeOfEncode (.load reply)) (execLoad_accepted hb))

theorem step_loadReply_refused (hz : s.codec x.rsp = z)
    (hb : lengthAccepted s.cfg reply.length = false) : step (s.goTo x (.loadReply reply)) = .next
      (endError x Err.size.code (s.ran x.rsp (z.fail .size))) := by
  subst hz
  exact step_goTo.trans (call_error (decodeOfEncode (.load reply)) (execLoad_refused hb))

/-- GET_ORG_TS on REQ (R194). -/
theorem step_readOrigin {o : Option Time} (hq : s.codec x.req = q) (ready : q.Ready)
    (ho : decodeTime s.cfg.tps (q.eightBytes 24) = o) : step (s.goTo x .readOrigin) = .next
      ((s.ran x.req (q.ok (.otime o))).goTo x (.copyOrigin o)) := by
  subst hq ho
  exact step_goTo.trans (call_ok (decodeOfEncode .getOrgTs)
    (getTimestamp_eightBytes (s := (s.goTo x .readOrigin).select x.req) ready .org))

/-- SET_ORG_TS of the request's origin on RSP (R194). -/
theorem step_copyOrigin {o : Option Time} {r : BitVec 64} (hz : s.codec x.rsp = z) (ready : z.Ready)
    (enc : encodeTime s.cfg o = some r) : step (s.goTo x (.copyOrigin o)) = .next
      ((s.ran x.rsp ((z.withBuf (z.buf.write64 24 r)).ok .nothing)).goTo x .stampReply) := by
  subst hz
  exact step_goTo.trans (call_ok (decodeOfEncode (.setOrgTs o)) (setTimestamp_ready .org ready enc))

/-- SET_DST_TS of the clock's reading on RSP, which ends query (R194) and not getCorrectionOffset
(R196). -/
theorem step_stampReply (hz : s.codec x.rsp = z) (ready : z.Ready) : step (s.goTo x .stampReply) =
    thenReturnReply x .nothing
      (s.ran x.rsp ((z.setDestination (some x.nowReceipt)).ok .nothing)) := by
  subst hz
  exact step_goTo.trans (call_ok (decodeOfEncode (.setDstTs (some x.nowReceipt)))
    (execSetDstTs_ready (some x.nowReceipt) ready))

end

/-! Stretches of lines. -/

section
variable {s : State} {x : Exchange}

/-- Taking an operation that begins an exchange at the line `p`, on a Client not released. -/
theorem run_begin (n : Nat) {op : HostOp} {rest : List HostOp} {p : Phase} (hr : s.run = none)
    (hp : s.pending = op :: rest)
    (hop : ∀ u, perform op u = .next (beginExchange { x with phase := p } u))
    (hx : (s.client x.client).released = false) : Sys2Proof.core.run (n + 1) s =
      Sys2Proof.core.run n (({ s with pending := rest } : State).goTo x p) :=
  core_run_succ n <| (step_of_pending hr hp).trans <| (hop _).trans <|
    congrArg Host.Outcome.next (beginExchange_open hx)

/-- The machine when the packet in REQ has been sent whole. -/
def State.sentRequest (s : State) (x : Exchange) : State :=
  (s.ran x.req ((s.codec x.req).ok (.bytes (s.codec x.req).bytes))).putClient x.client
    { s.client x.client with
      sent := (s.client x.client).sent ++ [⟨(s.client x.client).remote, (s.codec x.req).bytes⟩] }

@[simp] theorem State.sentRequest_cfg : (s.sentRequest x).cfg = s.cfg := rfl
@[simp] theorem State.sentRequest_pending : (s.sentRequest x).pending = s.pending := rfl
@[simp] theorem State.sentRequest_client : (s.sentRequest x).client x.client =
    { s.client x.client with
      sent := (s.client x.client).sent ++ [⟨(s.client x.client).remote, (s.codec x.req).bytes⟩] } :=
  State.client_putClient_same _ _ _
@[simp] theorem State.sentRequest_req : (s.sentRequest x).codec x.req =
    (s.codec x.req).ok (.bytes (s.codec x.req).bytes) := State.ran_codec_same _ _ _
theorem State.sentRequest_other {k : Nat} (h : k ≠ x.req) :
    (s.sentRequest x).codec k = s.codec k := State.ran_codec_other _ _ _ h

/-- The request is sent and the reply received (R194). -/
theorem run_sentRequest (n : Nat) {reply : List Byte} (ready : (s.codec x.req).Ready)
    (hch : x.channel = .reply reply) : Sys2Proof.core.run (n + 3) (s.goTo x .readRequest) =
      Sys2Proof.core.run n ((s.sentRequest x).goTo x (.loadReply reply)) :=
  (core_run_succ (n + 2) (step_readRequest rfl ready)).trans <|
    (core_run_succ (n + 1) (step_send _ hch)).trans (core_run_succ n (step_receive hch))

/-- A reply of a refused length ends the exchange with E_SIZE (D26). -/
theorem run_refusedReply {reply : List Byte} (ready : (s.codec x.req).Ready)
    (hch : x.channel = .reply reply) (ne : x.req ≠ x.rsp)
    (hb : lengthAccepted s.cfg reply.length = false) :
    Sys2Proof.core.run 4 (s.goTo x .readRequest) = .next (endError x Err.size.code
      ((s.sentRequest x).ran x.rsp ((s.codec x.rsp).fail .size))) :=
  (run_sentRequest 1 ready hch).trans
    (core_run_succ 0 (step_loadReply_refused (State.sentRequest_other ne.symm) hb))

/-- What RSP holds at the end of query: the reply, its origin field `r` and its destination `now`. -/
def Codec.stampedReply (z : Codec) (reply : List Byte) (r : BitVec 64) (now : Time) : Codec :=
  (((z.loaded reply).withBuf ((z.loaded reply).buf.write64 24 r)).setDestination (some now)).ok .nothing

theorem Codec.eightBytes_stampedReply (z : Codec) (reply : List Byte) (r : BitVec 64) (now : Time) :
    (z.stampedReply reply r now).eightBytes 24 = r := by
  rw [Codec.stampedReply, Codec.eightBytes_ok, Codec.eightBytes_setDestination]
  exact Codec.eightBytes_write64 _ .org r

theorem Codec.read_stampedReply (z : Codec) (reply : List Byte) (r : BitVec 64) (now : Time) {a : Nat}
    (ha : a < 24 ∨ 32 ≤ a) : (z.stampedReply reply r now).buf.read a = reply.getD a 0 :=
  Memory.read_write64_ofBytes ha r

/-- A reply of an accepted length is loaded, the request's origin copied into it and the destination
stamped, which ends query (R194). -/
theorem run_acceptedReply {reply : List Byte} {r : BitVec 64} (ready : (s.codec x.req).Ready)
    (hch : x.channel = .reply reply) (ne : x.req ≠ x.rsp) (hw : x.wantOffset = false)
    (hb : lengthAccepted s.cfg reply.length = true)
    (enc : encodeTime s.cfg (decodeTime s.cfg.tps ((s.codec x.req).eightBytes 24)) = some r) :
    ∃ u, Sys2Proof.core.run 7 (s.goTo x .readRequest) = .next (endOk x (.packet x.rsp) u) ∧
      u.pending = s.pending ∧ u.client x.client = (s.sentRequest x).client x.client ∧
      (s.codec x.req).SameState (u.codec x.req) ∧
      u.codec x.rsp = (s.codec x.rsp).stampedReply reply r x.nowReceipt := by
  have long : bufMin ≤ reply.length := ((lengthAccepted_iff _ _).1 hb).1
  refine ⟨_, calc
    _ = Sys2Proof.core.run 4 _ := run_sentRequest 4 ready hch
    _ = Sys2Proof.core.run 3 _ := core_run_succ 3 (step_loadReply (State.sentRequest_other ne.symm) hb)
    _ = Sys2Proof.core.run 2 _ := core_run_succ 2 (step_readOrigin
      ((State.ran_codec_other _ _ _ ne).trans State.sentRequest_req) (Codec.ready_ok ready _) rfl)
    _ = Sys2Proof.core.run 1 _ := core_run_succ 1 (step_copyOrigin
      ((State.ran_codec_other _ _ _ ne.symm).trans (State.ran_codec_same _ _ _)) ⟨rfl, long⟩ enc)
    _ = .next _ := core_run_succ 0 ((step_stampReply (State.ran_codec_same _ _ _) ⟨rfl, long⟩).trans
      (if_neg (by simp [hw]))), rfl, rfl, ?_, ?_⟩
  · rw [State.ran_codec_other _ _ _ ne, State.ran_codec_other _ _ _ ne, State.ran_codec_same]
    exact ⟨rfl, rfl, rfl, rfl, rfl, rfl⟩
  · exact State.ran_codec_same _ _ _

/-- ENCODE takes everything DECODE gives (R147). -/
theorem exists_encodeTime_decodeTime {g : Config} (hg : g.lawful) (r : BitVec 64) :
    ∃ r', encodeTime g (decodeTime g.tps r) = some r' := by
  cases h : decodeTime g.tps r with
  | none => exact ⟨0, encodeTime_absent g⟩
  | some t => exact (decodeSplitAndRange g hg r t h).2.2.2

end

end Sys2Proof.Machine

namespace Sys2Proof
open Machine

/-- Settles O54: each operation on the timeout only replaces the Client. -/
theorem timeoutProperty : Obligations.TimeoutProperty := by
  intro s c d rest hr
  refine ⟨fun hp => ⟨_, step_of_pending hr hp, changesOnlyClient_putClient hr _⟩,
    fun hp => ⟨fun below => ⟨_, ?_, changesOnlyClient_putClient hr _⟩,
      fun enough => ⟨_, ?_, changesOnlyClient_putClient hr _⟩⟩⟩
  · exact (step_of_pending hr hp).trans (congrArg Host.Outcome.next (setTimeout_below below))
  · exact (step_of_pending hr hp).trans (congrArg Host.Outcome.next (setTimeout_taken enough))

/-- Settles O56: each operation only replaces the Client, the second release by itself. -/
theorem releaseIsFinal : Obligations.ReleaseIsFinal := by
  intro s c rest hr
  refine ⟨fun hp => ?release, fun op req rsp ch now now' released hp hop => ?query⟩
  case release =>
    obtain ⟨t, ht, changes⟩ := step_release hr hp
    have ⟨client, _, _, _, idle, _⟩ := changes
    obtain ⟨u, hu, again⟩ := step_release (s := { t with pending := .release c :: rest }) idle rfl
    have same : { t.client c with released := true, status := 0, value := some .nothing } =
        t.client c := by rw [client]
    exact ⟨t, ht, changes, u, hu, same ▸ again⟩
  case query =>
    obtain rfl | rfl | rfl := hop
    all_goals exact step_begin_released hr hp (fun _ => rfl) released

/-- Settles O3: the two lines, each a codec command on RSP. -/
theorem correctionOffsetIsReturned : Obligations.CorrectionOffsetIsReturned := by
  refine ⟨fun s x hr hp ready => ?stamp,
    fun s x hr hp => ⟨fun d answers => ?result, fun u hu hs => ?error⟩⟩
  case stamp =>
    have line := step_stampReply (x := x) rfl ready
    rw [State.eq_goTo hr hp, thenReturnReply] at line
    rw [line]
    by_cases hw : x.wantOffset = true
    · exact ⟨_, if_pos hw, by simp [hw]⟩
    · exact ⟨_, if_neg hw, by simp [hw]⟩
  case result =>
    obtain ⟨y, hy⟩ := call_of_answers (x := x) (cont := thenReturnOffset x)
      (decodeOfEncode .getOffset) answers
    refine ⟨endOk x (.duration d) (s.ran x.rsp y), ?_, by simp⟩
    rw [step_of_run hr, advance, hp]
    exact hy
  case error =>
    refine ⟨endError x u.cur.status u, ?_, by simp⟩
    rw [step_of_run hr, advance, hp]
    exact call_of_error (decodeOfEncode .getOffset) hu hs

/-- Settles O59: after INIT_DEFAULT, SET_ORG_TS of the clock's reading stores it or ends the exchange. -/
theorem defaultQueryStampsTheRequest : Obligations.DefaultQueryStampsTheRequest := by
  intro s c req rsp ch now now' rest op w hr hp hop hc
  have begins (u : State) :
      perform op u = .next (beginExchange ⟨c, req, rsp, ch, now, now', w, .initRequest⟩ u) := by
    obtain ⟨rfl, rfl⟩ | ⟨rfl, rfl⟩ := hop
    · rfl
    · rfl
  have initialised := (run_begin 2 (x := ⟨c, req, rsp, ch, now, now', w, .initRequest⟩)
    hr hp begins hc).trans (core_run_succ 1 step_initRequest)
  have ready : (((s.codec req).loaded defaultPacket).ok .nothing).Ready :=
    Codec.ready_ok (Codec.ready_loaded (b := defaultPacket) _ (Nat.le_refl 48)) _
  rw [initialised]
  refine ⟨fun r enc => ?stamped, fun enc => ?refused⟩
  case stamped =>
    refine ⟨_, core_run_succ 0 (step_stampRequest (State.ran_codec_same _ _ _) ready enc), rfl, ?_⟩
    rw [State.goTo_codec, State.ran_codec_same]
    refine ⟨rfl, rfl, rfl, Memory.read_write64_ofBytes (.inl (by decide)) r, ?_,
      fun a ha out => (Memory.read_write64_ofBytes out r).trans (defaultPacket_getD_other ha)⟩
    rw [Codec.eightBytes_ok]
    exact Codec.eightBytes_write64 _ .org r
  case refused =>
    refine ⟨_, core_run_succ 0
      (step_stampRequest_range (State.ran_codec_same _ _ _) ready enc), rfl, ?_⟩
    rw [endError_client]
    exact ⟨rfl, rfl, rfl⟩

/-- Settles O58, by whether RSP accepts the reply once the request has been sent. -/
theorem queryReturnsStampedReply : Obligations.QueryReturnsStampedReply := by
  intro s c req rsp reply now rest hg hr hp hc ne ready
  have begun (n : Nat) := run_begin n (x := ⟨c, req, rsp, .reply reply, 0, now, false, .readRequest⟩)
    hr hp (fun _ => rfl) hc
  refine ⟨fun hmin hmax => ?accepted, fun out => ?refused⟩
  case accepted =>
    obtain ⟨r, enc⟩ := exists_encodeTime_decodeTime hg ((s.codec req).eightBytes 24)
    obtain ⟨u, hu, pending, client, hreq, hrsp⟩ := run_acceptedReply
      (s := { s with pending := rest })
      (x := ⟨c, req, rsp, .reply reply, 0, now, false, .readRequest⟩) ready rfl ne rfl
      ((lengthAccepted_iff _ _).2 ⟨hmin, hmax⟩) enc
    refine ⟨_, r, (begun 7).trans hu, rfl, pending, ?_⟩
    rw [endOk_client, endOk_codec, endOk_codec, hrsp, client, State.sentRequest_client]
    exact ⟨rfl, rfl, rfl, hreq, enc, Codec.eightBytes_stampedReply _ _ _ _,
      fun _ => Codec.read_stampedReply _ _ _ _, rfl, rfl, rfl, rfl, rfl⟩
  case refused =>
    have rejected : lengthAccepted s.cfg reply.length = false := by
      rw [← Bool.not_eq_true, lengthAccepted_iff]
      omega
    refine ⟨_, (begun 4).trans (run_refusedReply ready rfl ne rejected), rfl, rfl, ?_⟩
    rw [endError_client, endError_codec, endError_codec, State.ran_codec_same,
      State.ran_codec_other _ _ _ ne, State.sentRequest_req]
    exact ⟨rfl, rfl, ⟨rfl, rfl, rfl, rfl, rfl, rfl⟩, rfl, rfl, rfl, rfl, rfl⟩

end Sys2Proof
end

section
/-! SUPPORT. Errors (60_exceptions.md): what a command's answer shows of the error it raised, which
errors each command can raise and in what order (R200 to R214), and the two lines of an exchange whose
channel gives no reply (R212). -/

namespace Sys2Proof.Machine

section
variable {s t : State} {c : Command} {i : Instr}

/-! Errors on the ports (R200 to R202). -/

/-- An answer that shows OK is not the effect of an error. -/
theorem setCur_ok_ne_setCur_fail (x y : Codec) (d : Dout) (e : Err) :
    s.setCur (x.ok d) ≠ s.setCur (y.fail e) := by
  intro h
  have status := congrArg (fun u => u.cur.status) h
  simp only [State.cur_setCur, Codec.ok_status, Codec.fail_status] at status
  exact Err.code_ne_zero e status.symm

/-- Everything a command, legal or not, can answer next: an error, which keeps the packet, or OK, with
an instance that keeps ERRLOG. -/
theorem runCommand_cases (h : runCommand c s = .next t) :
    (∃ e, t = s.setCur (s.cur.fail e)) ∨
    (∃ (x : Codec) (d : Dout), t = s.setCur (x.ok d) ∧ x.errlog = s.cur.errlog) := by
  cases hd : decode c with
  | error e => exact .inl ⟨_, raise_next.1 (runCommand_illegal hd ▸ h)⟩
  | ok i => exact exec_next (runCommand_of_decode hd ▸ h)

/-! The errors of each command (R203, R207). -/

/-- A command whose only error is `e` raises an error of the list `[e]` or ends OK. -/
theorem fail_mem_singleton_or_ok {e : Err} {p : Prop} {y : Codec} {d : Dout}
    (h : t = s.setCur (s.cur.fail e) ∨ p ∧ t = s.setCur (y.ok d)) :
    (∃ e' ∈ [e], t = s.setCur (s.cur.fail e')) ∨
    ∃ (y : Codec) (d : Dout), t = s.setCur (y.ok d) :=
  h.imp (fun h => ⟨e, List.mem_singleton_self e, h⟩) fun ⟨_, h⟩ => ⟨y, d, h⟩

/-- A decoded command raises an error of its list (R203) or ends OK. -/
theorem exec_errors (h : exec i s = .next t) :
    (∃ e ∈ i.errors, t = s.setCur (s.cur.fail e)) ∨
    ∃ (y : Codec) (d : Dout), t = s.setCur (y.ok d) := by
  cases i with
  | getLi | getVn | getMode => exact fail_mem_singleton_or_ok (getSubField_next h)
  | setLi v | setVn v => exact fail_mem_singleton_or_ok (setSubField_next h)
  | setMode v => exact (execSetMode_next h).imp_right fun ⟨_, _, h⟩ => ⟨_, _, h⟩
  | getStratum | getPoll | getPrecision => exact fail_mem_singleton_or_ok (getByte_next h)
  | getRootDelay | getRootDispersion | getReferenceId =>
    exact fail_mem_singleton_or_ok (getWord_next h)
  | getRefTs | getOrgTs | getRcvTs | getXmtTs =>
    exact fail_mem_singleton_or_ok (getTimestamp_next h)
  | setRefTs o | setOrgTs o | setRcvTs o | setXmtTs o =>
    exact (setTimestamp_next h).imp_right fun ⟨_, _, _, h⟩ => ⟨_, _, h⟩
  | getDstTs => exact fail_mem_singleton_or_ok (execGetDstTs_next h)
  | setDstTs o => exact fail_mem_singleton_or_ok (execSetDstTs_next h)
  | getRtt | getOffset => exact (metric_next h).imp_right fun ⟨_, _, _, _, _, h⟩ => ⟨_, _, h⟩
  | initDefault => exact .inr ⟨_, _, respond_next.1 h⟩
  | load b => exact fail_mem_singleton_or_ok (execLoad_next h)
  | readBuf => exact fail_mem_singleton_or_ok (execReadBuf_next h)

/-- The STATUS of a decoded command is 0 or the code of an error of its list (R203). -/
theorem exec_status_mem_errors (h : exec i s = .next t) (hs : t.cur.status ≠ 0) :
    ∃ e ∈ i.errors, t.cur.status = e.code := by
  obtain ⟨e, he, rfl⟩ | ⟨y, d, rfl⟩ := exec_errors h
  · exact ⟨e, he, by rw [State.cur_setCur, Codec.fail_status]⟩
  · rw [State.cur_setCur, Codec.ok_status] at hs
    exact absurd rfl hs

/-- On a packet a wire timestamp's setter raises E_TS_RANGE exactly where ENCODE does (R207). -/
theorem setTimestamp_eq_tsRange_iff (f : WireTs) {o : Option Time} (ready : s.cur.Ready) :
    setTimestamp f o s = .next (s.setCur (s.cur.fail .tsRange)) ↔ encodeTime s.cfg o = none := by
  refine ⟨fun h => ?_, fun enc => setTimestamp_range f ready enc⟩
  cases enc : encodeTime s.cfg o with
  | none => rfl
  | some r =>
    rw [setTimestamp_ready f ready enc] at h
    exact absurd (Host.Outcome.next.inj h) (setCur_ok_ne_setCur_fail _ _ _ _)

/-- SET_DST_TS does not list E_TS_RANGE (R158, R207). -/
theorem exec_setDstTs_status_ne_tsRange {o : Option Time} (h : exec (.setDstTs o) s = .next t) :
    t.cur.status ≠ Err.tsRange.code := by
  intro hs
  obtain ⟨e, he, code⟩ := exec_status_mem_errors h (by rw [hs]; exact Err.code_ne_zero _)
  obtain rfl : e = .noPacket := List.mem_singleton.1 he
  exact absurd (code.symm.trans hs) (by decide)

end

/-! A channel that gives no reply (R212). -/

section
variable {s : State} {x : Exchange}

/-- CH.send on a channel that takes the request (R194). -/
theorem step_send_taken (b : List Byte) (hch : x.channel ≠ .sendFails) :
    step (s.goTo x (.send b)) = .next
      ((s.putClient x.client { s.client x.client with
        sent := (s.client x.client).sent ++ [⟨(s.client x.client).remote, b⟩] }).goTo x .receive) := by
  obtain ⟨c, req, rsp, ch, now, now', w, p⟩ := x
  cases ch with
  | sendFails => exact absurd rfl hch
  | noReply | receiveFails | reply r => exact step_goTo

/-- CH.send where sending fails ends the exchange with nothing sent (R212, log 28). -/
theorem step_send_fails (b : List Byte) (hch : x.channel = .sendFails) :
    step (s.goTo x (.send b)) = .next (endError x HostErr.transport.code s) := by
  obtain ⟨c, req, rsp, ch, now, now', w, p⟩ := x
  subst hch
  exact step_goTo

/-- CH.receive where no reply is received ends the exchange (R212). -/
theorem step_receive_fails (hch : ∀ r, x.channel ≠ .reply r) :
    step (s.goTo x .receive) = .next (endError x HostErr.transport.code s) := by
  obtain ⟨c, req, rsp, ch, now, now', w, p⟩ := x
  cases ch with
  | reply r => exact absurd rfl (hch r)
  | sendFails | noReply | receiveFails => exact step_goTo

/-- From READ_BUF on, a request that cannot be sent. -/
theorem run_unsentRequest (ready : (s.codec x.req).Ready) (hch : x.channel = .sendFails) :
    Sys2Proof.core.run 2 (s.goTo x .readRequest) = .next (endError x HostErr.transport.code
      (s.ran x.req ((s.codec x.req).ok (.bytes (s.codec x.req).bytes)))) :=
  (core_run_succ 1 (step_readRequest rfl ready)).trans (core_run_succ 0 (step_send_fails _ hch))

/-- From READ_BUF on, a request that is sent and not answered. -/
theorem run_unansweredRequest (ready : (s.codec x.req).Ready) (sends : x.channel ≠ .sendFails)
    (hch : ∀ r, x.channel ≠ .reply r) : Sys2Proof.core.run 3 (s.goTo x .readRequest) =
      .next (endError x HostErr.transport.code (s.sentRequest x)) :=
  (core_run_succ 2 (step_readRequest rfl ready)).trans <|
    (core_run_succ 1 (step_send_taken _ sends)).trans (core_run_succ 0 (step_receive_fails hch))

end

end Sys2Proof.Machine

namespace Sys2Proof
open Machine

/-- Settles O29: ENCODE's range check, on which alone a wire setter on a packet raises E_TS_RANGE;
SET_DST_TS does not list the error. -/
theorem wireSettersRaiseRangeExactly : Obligations.WireSettersRaiseRangeExactly := by
  intro s t i ready hi
  have encode := encodeTime_none_iff s.cfg t
  refine ⟨encode, ?_, fun o u h => exec_setDstTs_status_ne_tsRange h⟩
  rw [← encode]
  obtain rfl | rfl | rfl | rfl := hi
  exacts [setTimestamp_eq_tsRange_iff .ref ready, setTimestamp_eq_tsRange_iff .org ready,
    setTimestamp_eq_tsRange_iff .rcv ready, setTimestamp_eq_tsRange_iff .xmt ready]

/-- Settles O39: only the two constructors perform their rule outside the PV check. -/
theorem noPacketGuard : Obligations.NoPacketGuard := fun _ _ hp hinit hload =>
  exec_noPacket (constructs_eq_false_iff.2 ⟨hinit, hload⟩) hp

/-- Settles O41: a command answers either the effect of an error or an OK that keeps ERRLOG. -/
theorem errorsArePrecise : Obligations.ErrorsArePrecise := by
  intro c s t h
  obtain ⟨e, rfl⟩ | ⟨x, d, rfl, errlog⟩ := runCommand_cases h <;> rw [State.cur_setCur]
  · exact ⟨fun _ => ⟨⟨e, rfl⟩, rfl, ⟨rfl, rfl, rfl, rfl, rfl⟩, rfl⟩,
      fun ok => absurd ok (Err.code_ne_zero e)⟩
  · exact ⟨fun raised => absurd rfl raised, fun _ => errlog⟩

/-- Settles O42: a command ends with an error or with a result of its kind, and with no third thing. -/
theorem successGivesResultOfItsKind : Obligations.SuccessGivesResultOfItsKind := by
  intro i s t h
  obtain ⟨e, eq⟩ | ⟨d, x, kind, eq⟩ | ⟨_, _, eq⟩ := exec_endsWith i s
  · obtain rfl := raise_next.1 (eq.symm.trans h)
    rw [State.cur_setCur]
    exact ⟨fun raised => absurd rfl (raised e), fun ok => absurd ok (Err.code_ne_zero e), nofun⟩
  · obtain rfl := respond_next.1 (eq.symm.trans h)
    rw [State.cur_setCur]
    exact ⟨fun _ => rfl, fun _ => ⟨d, rfl, kind⟩, fun _ => rfl⟩
  · cases eq.symm.trans h

/-- Settles O43, level by level: decoding, the PV check, the operand checks, and the two errors of a
metric. -/
theorem errorPriority : Obligations.ErrorPriority := by
  intro c s
  refine ⟨fun e hd => runCommand_illegal hd,
    fun i hd hc hp => (runCommand_of_decode hd).trans (exec_noPacket hc hp), fun b hd out => ?size,
    fun ready => ⟨fun v hd strict h3 h4 => ?modeDomain, fun o enc hd => ?tsRange,
      fun hd absent => ?state, fun t0 t1 t2 t3 present hd out => ?overflow⟩⟩
  case size =>
    have refused : lengthAccepted s.cfg b.length = false := by
      rw [← Bool.not_eq_true, lengthAccepted_iff]
      omega
    exact (runCommand_of_decode hd).trans (execLoad_refused refused)
  case modeDomain =>
    exact (runCommand_of_decode hd).trans (execSetMode_refused ready ⟨strict, h3, h4⟩)
  case tsRange =>
    have range (f : WireTs) := setTimestamp_range f ready enc
    obtain hd | hd | hd | hd := hd <;> rw [runCommand_of_decode hd]
    exacts [range .ref, range .org, range .rcv, range .xmt]
  case state =>
    obtain hd | hd := hd <;> rw [runCommand_of_decode hd]
    all_goals exact metric_someAbsent ready absent
  case overflow =>
    have req := required_of_fourPresent present
    have unfit (num : Int) :
        ¬ FourTimes.Fits ⟨t0.toInt, t1.toInt, t2.toInt, t3.toInt⟩ num :=
      fun ⟨way_out, way_back, _⟩ => out.elim (· way_out) (· way_back)
    obtain hd | hd := hd <;> rw [runCommand_of_decode hd]
    exacts [metric_of_not_fits (roundTrip_measures _) ready req (unfit _),
      metric_of_not_fits (correctionOffset_measures _ _) ready req (unfit _)]

/-- Settles O44: R203's numbers, and the errors each command can end with. -/
theorem commandsRaiseOnlyTheirErrors : Obligations.CommandsRaiseOnlyTheirErrors :=
  ⟨⟨rfl, rfl, rfl, rfl, rfl, rfl, rfl, rfl, rfl, rfl⟩, fun _ _ _ h hs => exec_status_mem_errors h hs⟩

/-- Settles O57, by whether the channel takes the request: the exchange ends at the send or at the
receive, and READ_BUF is the one codec command it has run. -/
theorem transportFailureKeepsCodecs : Obligations.TransportFailureKeepsCodecs := by
  intro s c req rsp ch now rest hr hp hc ready noReply
  have begun (n : Nat) := run_begin n (x := ⟨c, req, rsp, ch, 0, now, false, .readRequest⟩)
    hr hp (fun _ => rfl) hc
  by_cases sends : ch = .sendFails
  · rw [if_pos sends]
    refine ⟨_, (begun 2).trans (run_unsentRequest ready sends), rfl, rfl, ?_⟩
    rw [endError_client, endError_codec, State.ran_codec_same]
    exact ⟨rfl, rfl, .inr ⟨sends, rfl⟩, ⟨rfl, rfl, rfl, rfl, rfl, rfl⟩,
      fun _ hk => State.ran_codec_other _ _ _ hk⟩
  · rw [if_neg sends]
    refine ⟨_, (begun 3).trans (run_unansweredRequest ready sends noReply), rfl, rfl, ?_⟩
    rw [endError_client, endError_codec, State.sentRequest_client, State.sentRequest_req]
    exact ⟨rfl, rfl, .inl rfl, ⟨rfl, rfl, rfl, rfl, rfl, rfl⟩, fun _ hk => State.sentRequest_other hk⟩

/-- Settles O5: the idle step. -/
theorem idleMachineKeepsState : Obligations.IdleMachineKeepsState := fun _ => step_idle

/-- Settles O31: REQUIRED answers none where one of the four is absent. -/
theorem metricsRaiseStateWhenAbsent : Obligations.MetricsRaiseStateWhenAbsent := fun _ ready absent =>
  ⟨metric_someAbsent ready absent, metric_someAbsent ready absent⟩

end Sys2Proof
end

section
/-! SUPPORT. A new Client (R191, R233): its timeout in milliseconds, and its creation as a host
operation. -/

namespace Sys2Proof.Machine

/-- TIMEOUT of a new Client is exactly 15000 ms: no part of a tick is lost at a lawful TPS (R191). -/
theorem Client.fresh_timeout_exact {g : Config} (hg : g.lawful) (remote : Endpoint) :
    (Client.fresh g remote).timeout.toInt * 1000 = 15000 * g.tps := by
  rw [Client.fresh_timeout_toInt hg]
  omega

/-- Taking the creation of a Client makes that Client new, for the endpoint given (R191, R233). -/
theorem step_newClient {s : State} {c : Nat} {remote : Endpoint} {rest : List HostOp}
    (hr : s.run = none) (hp : s.pending = .newClient c remote :: rest) :
    ∃ t, step s = .next t ∧ t.client c = Client.fresh s.cfg remote :=
  ⟨_, step_of_pending hr hp, State.client_putClient_same _ _ _⟩

end Sys2Proof.Machine

namespace Sys2Proof
open Machine

/-- Settles O55: at reset and on creation alike the Client is the fresh one. -/
theorem newClientDefaults : Obligations.NewClientDefaults := by
  intro g hg
  refine ⟨fun c => ?atReset, fun s c remote rest hcfg hr hp => ?created⟩
  case atReset =>
    rw [State.resetWith_client]
    exact ⟨Client.fresh_timeout_exact hg _, rfl, rfl⟩
  case created =>
    obtain ⟨t, ht, fresh⟩ := step_newClient hr hp
    rw [hcfg] at fresh
    refine ⟨t, ht, ?_⟩
    rw [fresh]
    exact ⟨Client.fresh_timeout_exact hg _, rfl, rfl, rfl⟩

end Sys2Proof
end
